-- ==== Sys2Proof/Word.lean ====
section
/-! DEFINITION. The machine's word is the byte (00_scope.md R7, R11): every register and memory cell holds one, unsigned. -/

namespace Sys2Proof

/-- A byte: an integer in `[0, 256)`, bit 0 least significant (R11). -/
abbrev Byte := BitVec 8

/-- The low 8 bits of an exact result: "results wrap modulo 256" (42_alu.md R86). -/
def narrow (n : Nat) : Byte := BitVec.ofNat 8 n

/-- The low 8 bits of an exact integer, the non-negative remainder modulo 256 (00_scope.md R11). -/
def narrowInt (z : Int) : Byte := BitVec.ofInt 8 z

end Sys2Proof
end

