-- ==== Sys2Proof/Syntax.lean ====
section
/-! DEFINITION. The instructions as syntax: one constructor per row of the opcode map (30_encoding.md R60), in its order. -/

namespace Sys2Proof

/-- The operations of the ALU (42_alu.md R84); which of them it supports depends on `EXT_ALU` (R85). -/
inductive AluOp where
  | add | mul | and | or | xor | cmp | sub | div | mod | not
  deriving DecidableEq, Repr

/-- The four instruction formats (30_encoding.md R52). -/
inductive Format where
  /-- Opcode only. -/
  | none
  /-- Opcode and one register byte `A`. -/
  | reg
  /-- Opcode, register byte `A`, immediate byte `B`. -/
  | regImm
  /-- Opcode and two register bytes `A` (regA) and `B` (regB). -/
  | regReg
  deriving DecidableEq, Repr

/-- The operand count `n` of a format; an instruction's length is `1 + n` (30_encoding.md R51, R52). -/
def Format.operandCount : Format → Nat
  | .none => 0
  | .reg => 1
  | .regImm => 2
  | .regReg => 2

/-- The names of the opcode map's rows, in its order (30_encoding.md R60). -/
inductive Mnemonic where
  | HLT | LDI | PRN | ADD | MUL | AND | OR | XOR | PUSH | POP | CALL | RET | CMP | JMP | JEQ | JNE
  | SUB | DIV | MOD | NOT
  deriving DecidableEq, Repr

/-- Every mnemonic once, in the opcode map's order. -/
def Mnemonic.all : List Mnemonic :=
  [.HLT, .LDI, .PRN, .ADD, .MUL, .AND, .OR, .XOR, .PUSH, .POP, .CALL, .RET, .CMP, .JMP, .JEQ, .JNE,
   .SUB, .DIV, .MOD, .NOT]

/-- The "format" column of the opcode map (30_encoding.md R52, R60). -/
def Mnemonic.format : Mnemonic → Format
  | .HLT | .RET => .none
  | .PRN | .PUSH | .POP | .CALL | .JMP | .JEQ | .JNE | .NOT => .reg
  | .LDI => .regImm
  | .ADD | .MUL | .AND | .OR | .XOR | .CMP | .SUB | .DIV | .MOD => .regReg

/-- The "EXT_ALU" column of the opcode map: the row exists only with `EXT_ALU = true` (00_scope.md R9; R60). -/
def Mnemonic.needsExtAlu : Mnemonic → Bool
  | .SUB | .DIV | .MOD | .NOT => true
  | .HLT | .LDI | .PRN | .ADD | .MUL | .AND | .OR | .XOR | .PUSH | .POP | .CALL | .RET | .CMP | .JMP | .JEQ
  | .JNE => false

/-- An instruction with its operand bytes as fetched. A register operand is the whole byte (30_encoding.md R55): a byte
of 8 or more is a legal encoding of an instruction that raises InvalidRegister (40_cycle.md R71), so the byte is kept. -/
inductive Instr where
  | hlt
  | ldi (a imm : Byte)
  | prn (a : Byte)
  | add (a b : Byte)
  | mul (a b : Byte)
  | and (a b : Byte)
  | or (a b : Byte)
  | xor (a b : Byte)
  | push (a : Byte)
  | pop (a : Byte)
  | call (a : Byte)
  | ret
  | cmp (a b : Byte)
  | jmp (a : Byte)
  | jeq (a : Byte)
  | jne (a : Byte)
  | sub (a b : Byte)
  | div (a b : Byte)
  | mod (a b : Byte)
  | not (a : Byte)
  deriving DecidableEq, Repr

/-- The row of the opcode map an instruction belongs to. -/
def Instr.mnemonic : Instr → Mnemonic
  | .hlt => .HLT
  | .ldi _ _ => .LDI
  | .prn _ => .PRN
  | .add _ _ => .ADD
  | .mul _ _ => .MUL
  | .and _ _ => .AND
  | .or _ _ => .OR
  | .xor _ _ => .XOR
  | .push _ => .PUSH
  | .pop _ => .POP
  | .call _ => .CALL
  | .ret => .RET
  | .cmp _ _ => .CMP
  | .jmp _ => .JMP
  | .jeq _ => .JEQ
  | .jne _ => .JNE
  | .sub _ _ => .SUB
  | .div _ _ => .DIV
  | .mod _ _ => .MOD
  | .not _ => .NOT

/-- The operand bytes in the order they stand after the opcode (30_encoding.md R52). -/
def Instr.operands : Instr → List Byte
  | .hlt | .ret => []
  | .prn a | .push a | .pop a | .call a | .jmp a | .jeq a | .jne a | .not a => [a]
  | .ldi a b => [a, b]
  | .add a b | .mul a b | .and a b | .or a b | .xor a b | .cmp a b | .sub a b | .div a b | .mod a b => [a, b]

/-- The operand bytes the format marks as registers, in the order they are checked (40_cycle.md R71). -/
def Instr.registerBytes : Instr → List Byte
  | .hlt | .ret => []
  | .prn a | .push a | .pop a | .call a | .jmp a | .jeq a | .jne a | .not a => [a]
  | .ldi a _ => [a]
  | .add a b | .mul a b | .and a b | .or a b | .xor a b | .cmp a b | .sub a b | .div a b | .mod a b => [a, b]

/-- The length in bytes, `1 + n` (30_encoding.md R51). -/
def Instr.length (i : Instr) : Nat := 1 + i.mnemonic.format.operandCount

end Sys2Proof
end

