-- ==== Sys2Proof/Config.lean ====
section
/-! DEFINITION. The configuration `(EXT_ALU, OPCODE)` (10_state.md R33, R34): fixed when the machine is constructed, written
by no instruction and no host operation. The spec leaves no value open, so there is no free value here. -/

namespace Sys2Proof

/-- `OPCODE`: the opcode byte of every row of the opcode map, one table "so that it can be replaced" (00_scope.md R10,
93_implementation_defined.md I10). The values of R60 are `defaultOpcodes` in Decode.lean. -/
structure OpcodeTable where
  hlt : Byte
  ldi : Byte
  prn : Byte
  add : Byte
  mul : Byte
  and : Byte
  or : Byte
  xor : Byte
  push : Byte
  pop : Byte
  call : Byte
  ret : Byte
  cmp : Byte
  jmp : Byte
  jeq : Byte
  jne : Byte
  sub : Byte
  div : Byte
  mod : Byte
  not : Byte
  deriving DecidableEq, Repr

/-- The opcode byte the table gives a row. -/
def OpcodeTable.opcodeOf (t : OpcodeTable) : Mnemonic → Byte
  | .HLT => t.hlt
  | .LDI => t.ldi
  | .PRN => t.prn
  | .ADD => t.add
  | .MUL => t.mul
  | .AND => t.and
  | .OR => t.or
  | .XOR => t.xor
  | .PUSH => t.push
  | .POP => t.pop
  | .CALL => t.call
  | .RET => t.ret
  | .CMP => t.cmp
  | .JMP => t.jmp
  | .JEQ => t.jeq
  | .JNE => t.jne
  | .SUB => t.sub
  | .DIV => t.div
  | .MOD => t.mod
  | .NOT => t.not

/-- The parameters of the step (10_state.md R34). -/
structure Config where
  /-- `EXT_ALU` (00_scope.md R9): whether SUB, DIV, MOD and NOT exist. -/
  extAlu : Bool
  /-- `OPCODE` (00_scope.md R10). -/
  opcodes : OpcodeTable
  deriving DecidableEq, Repr

/-- The row's dispatch-table slot is present (30_encoding.md R58, R59). -/
def Config.has (c : Config) (m : Mnemonic) : Bool := c.extAlu || !m.needsExtAlu

end Sys2Proof
end

