-- ==== Sys2Proof/WellFormed.lean ====
section
/-! DEFINITION. Which instructions are well formed, and which configurations. -/

namespace Sys2Proof

/-- A register byte names a register: it is below 8 (30_encoding.md R55). -/
def registerByteOk (b : Byte) : Bool := b.toNat < 8

/-- Every register operand is legal (40_cycle.md R71); the immediate of LDI is any byte (30_encoding.md R56). -/
def Instr.registersOk (i : Instr) : Bool := i.registerBytes.all registerByteOk

/-- Well formed for a configuration: legal register operands, and a row the dispatch table has (30_encoding.md R61, R62). -/
def Instr.wellFormed (c : Config) (i : Instr) : Bool := i.registersOk && c.has i.mnemonic

/-- "Two different opcodes never name the same instruction, and one opcode never names two instructions" (30_encoding.md
R59): an `OPCODE` table gives different rows different bytes. -/
abbrev Config.wf (c : Config) : Prop := (Mnemonic.all.map c.opcodes.opcodeOf).Nodup

end Sys2Proof
end

