-- ==== Sys2Proof/Decode.lean ====
section
/-! DEFINITION. The opcode map, the dispatch table, the decoder (total on any bytes) and the encoder (30_encoding.md). -/

namespace Sys2Proof

/-- The opcode map's values (30_encoding.md R60). Only HLT's is the source's; the others are the spec's decision D1 (log 17). -/
def defaultOpcodes : OpcodeTable where
  hlt := 0b00000001
  ldi := 0b10000010
  prn := 0b01000111
  add := 0b10100000
  mul := 0b10100010
  and := 0b10101000
  or := 0b10101010
  xor := 0b10101011
  push := 0b01000101
  pop := 0b01000110
  call := 0b01010000
  ret := 0b00010001
  cmp := 0b10100111
  jmp := 0b01010100
  jeq := 0b01010101
  jne := 0b01010110
  sub := 0b10100001
  div := 0b10100011
  mod := 0b10100100
  not := 0b01101001

/-- The default configuration: `EXT_ALU = false` and the opcode map of R60 (00_scope.md R9, R10). -/
def Config.default : Config := { extAlu := false, opcodes := defaultOpcodes }

/-- The configuration with `EXT_ALU = true` and the opcode map of R60. -/
def Config.extended : Config := { extAlu := true, opcodes := defaultOpcodes }

/-- The dispatch table (30_encoding.md R58): the row an opcode byte selects, or absent. The whole byte is looked up; no
field of it is decoded (R54). Where a replaced table gives a byte to two rows, the first in the map's order (log 26). -/
def dispatch (c : Config) (op : Byte) : Option Mnemonic :=
  Mnemonic.all.find? fun m => c.has m && c.opcodes.opcodeOf m == op

/-- The instruction of a row with operand bytes `A` and `B` (30_encoding.md R52). Rows that have no `B`, or neither, do
not use it. -/
def Mnemonic.build (a b : Byte) : Mnemonic → Instr
  | .HLT => .hlt
  | .LDI => .ldi a b
  | .PRN => .prn a
  | .ADD => .add a b
  | .MUL => .mul a b
  | .AND => .and a b
  | .OR => .or a b
  | .XOR => .xor a b
  | .PUSH => .push a
  | .POP => .pop a
  | .CALL => .call a
  | .RET => .ret
  | .CMP => .cmp a b
  | .JMP => .jmp a
  | .JEQ => .jeq a
  | .JNE => .jne a
  | .SUB => .sub a b
  | .DIV => .div a b
  | .MOD => .mod a b
  | .NOT => .not a

/-- Why bytes are no instruction. -/
inductive DecodeError where
  /-- There is no opcode byte. -/
  | noOpcode
  /-- The opcode's dispatch-table slot is absent (30_encoding.md R61). -/
  | unknownOpcode (op : Byte)
  /-- Operand byte number `k` (1 or 2) is missing (40_cycle.md R70). -/
  | missingOperand (k : Nat)
  deriving DecidableEq, Repr

/-- Decode the instruction at the head of a byte sequence, with the bytes after it. -/
def decode (c : Config) : List Byte → Except DecodeError (Instr × List Byte)
  | [] => .error .noOpcode
  | op :: rest =>
    match dispatch c op with
    | none => .error (.unknownOpcode op)
    | some m =>
      match m.format, rest with
      | .none, r => .ok (m.build 0 0, r)
      | .reg, a :: r => .ok (m.build a 0, r)
      | .reg, [] => .error (.missingOperand 1)
      | .regImm, a :: b :: r => .ok (m.build a b, r)
      | .regImm, [_] => .error (.missingOperand 2)
      | .regImm, [] => .error (.missingOperand 1)
      | .regReg, a :: b :: r => .ok (m.build a b, r)
      | .regReg, [_] => .error (.missingOperand 2)
      | .regReg, [] => .error (.missingOperand 1)

/-- The bytes of an instruction: the opcode first, then its operands at increasing addresses (30_encoding.md R51, R52). -/
def encode (c : Config) : Instr → List Byte
  | .hlt => [c.opcodes.hlt]
  | .ldi a b => [c.opcodes.ldi, a, b]
  | .prn a => [c.opcodes.prn, a]
  | .add a b => [c.opcodes.add, a, b]
  | .mul a b => [c.opcodes.mul, a, b]
  | .and a b => [c.opcodes.and, a, b]
  | .or a b => [c.opcodes.or, a, b]
  | .xor a b => [c.opcodes.xor, a, b]
  | .push a => [c.opcodes.push, a]
  | .pop a => [c.opcodes.pop, a]
  | .call a => [c.opcodes.call, a]
  | .ret => [c.opcodes.ret]
  | .cmp a b => [c.opcodes.cmp, a, b]
  | .jmp a => [c.opcodes.jmp, a]
  | .jeq a => [c.opcodes.jeq, a]
  | .jne a => [c.opcodes.jne, a]
  | .sub a b => [c.opcodes.sub, a, b]
  | .div a b => [c.opcodes.div, a, b]
  | .mod a b => [c.opcodes.mod, a, b]
  | .not a => [c.opcodes.not, a]

/-- The three bytes of a word as the opcode table numbers its bits: byte `p` in bits 7..0, byte `p + 1` in bits 15..8,
byte `p + 2` in bits 23..16; bits from `nbits` on are 0. Three bytes is the longest instruction (R51). -/
def wordBytes (nbits w : Nat) : List Byte :=
  let v := w % 2 ^ nbits
  [narrow v, narrow (v / 256), narrow (v / 65536)]

/-- The instruction the decoder reads from a word of the opcode table, under the configuration that has every row of the
table, `EXT_ALU = true` (log 5). -/
def decodeTableWord (nbits w : Nat) : Option Instr :=
  match decode Config.extended (wordBytes nbits w) with
  | .ok (i, _) => some i
  | .error _ => none

end Sys2Proof
end

