-- ==== Sys2Proof/Machine/Memory.lean ====
section
/-! DEFINITION. The 256 memory cells as a list of address and byte pairs in one canonical form (10_state.md R31; 20_memory.md
R36). The accesses an instruction makes, which check their address, are in Ops.lean. -/

namespace Sys2Proof.Machine

/-- What an unlisted address reads as: memory is `0x00` after construction (10_state.md R31, the spec's decision D5; log 7). -/
def blankByte : Byte := 0

/-- The number of cells, `MEM_SIZE` (00_scope.md R7). -/
def memSize : Nat := 256

/-- Memory: the cells that differ from `blankByte`, by strictly rising address. -/
structure Memory where
  cells : List Host.Cell
  deriving DecidableEq, Repr

/-- The byte a list of cells gives an address. -/
def cellsGet : List Host.Cell → Nat → Byte
  | [], _ => blankByte
  | (b, w) :: rest, a => if a = b then w else cellsGet rest a

/-- Put byte `v` at address `a`, keeping the order, and dropping the entry where `v` is what an unlisted address reads as. -/
def cellsSet : List Host.Cell → Nat → Byte → List Host.Cell
  | [], a, v => if v = blankByte then [] else [(a, v)]
  | (b, w) :: rest, a, v =>
    if a < b then
      if v = blankByte then (b, w) :: rest else (a, v) :: (b, w) :: rest
    else if a = b then
      if v = blankByte then rest else (a, v) :: rest
    else (b, w) :: cellsSet rest a v

/-- The cells rise strictly from `low` on, lie below `memSize`, and none is blank. -/
def cellsOk : Nat → List Host.Cell → Bool
  | _, [] => true
  | low, (b, w) :: rest => low ≤ b && b < memSize && w != blankByte && cellsOk (b + 1) rest

/-- Memory with nothing listed: every cell `blankByte`. -/
def Memory.empty : Memory := ⟨[]⟩

/-- The canonical form: addresses strictly rising and inside the memory, no listed cell equal to what an unlisted one reads as. -/
def Memory.wf (m : Memory) : Bool := cellsOk 0 m.cells

/-- The byte at an address. -/
def Memory.get (m : Memory) (a : Nat) : Byte := cellsGet m.cells a

/-- The memory with byte `v` at address `a`. -/
def Memory.set (m : Memory) (a : Nat) (v : Byte) : Memory := ⟨cellsSet m.cells a v⟩

/-- Write bytes at increasing addresses from `a` on (70_reset_and_hazards.md R132). -/
def Memory.setAll (m : Memory) (a : Nat) : List Byte → Memory
  | [] => m
  | v :: rest => (m.set a v).setAll (a + 1) rest

end Sys2Proof.Machine
end

