-- ==== Sys2Proof/Machine/State.lean ====
section
/-! DEFINITION. The machine's state as plain data, its reset, and the reasons a step can fail to exist (10_state.md R34). -/

namespace Sys2Proof.Machine

/-- The error kinds with the information each carries: a closed list (60_exceptions.md R110, R111). -/
inductive ErrorKind where
  /-- A memory address, or a new SP value, outside `[0, 256)` (R112). -/
  | outOfBounds (a : Int)
  /-- A register operand byte of 8 or more (R113). -/
  | invalidRegister (b : Byte)
  /-- A fetched byte with no dispatch-table entry (R114). -/
  | invalidOpcode (b : Byte)
  /-- An operation the ALU does not support in this configuration (R115). -/
  | unsupportedAluOperation (op : AluOp)
  /-- The source given to `load` is unreadable, or its element `pos` is no byte; `none` where there is no element (R117; log 23). -/
  | loadError (pos : Option Nat)
  /-- DIV or MOD with regB holding 0 (R116). -/
  | divideByZero
  deriving DecidableEq, Repr

/-- An error record `(kind, info, pc)`: `pc` is the address of the instruction that raised it, absent where no
instruction did (60_exceptions.md R111; log 30). -/
structure ErrorRecord where
  kind : ErrorKind
  pc : Option Nat
  deriving DecidableEq, Repr

/-- The run status (10_state.md R30). -/
inductive Status where
  /-- Constructed or loaded, not running. -/
  | idle
  | running
  /-- A HLT at address `haltPC` ended the run. -/
  | halted (haltPC : Nat)
  /-- An error ended the run. -/
  | faulted (err : ErrorRecord)
  deriving DecidableEq, Repr

/-- An error ended the run. -/
def Status.isFaulted : Status → Bool
  | .faulted _ => true
  | .idle | .running | .halted _ => false

/-- The architectural state `(mem, x, pc, FL, IR, status, out)` of 10_state.md R34, with the configuration of the
machine it belongs to (R33; log 1). -/
@[ext]
structure State where
  /-- `(EXT_ALU, OPCODE)`: written by no instruction, step or host operation. -/
  cfg : Config
  /-- The general registers `x[0]` to `x[7]` (R16). -/
  regs : Vector Byte 8
  /-- The program counter, an unbounded natural number (00_scope.md R8; R21). -/
  pc : Nat
  /-- The flags register FL (R24). -/
  fl : Byte
  /-- The instruction register IR, "byte or unset" (R29, R34). -/
  ir : Option Byte
  /-- The run status (R30). -/
  status : Status
  /-- Memory (R31). -/
  mem : Memory
  /-- The output log, oldest byte first (R32). -/
  out : List Byte
  deriving DecidableEq, Repr

/-- Why the machine has no step: "A step is enabled only when status = Running" (40_cycle.md R67). An error an
instruction raises is no fault of the model: it is a next state whose status is `faulted` (60_exceptions.md R118). -/
inductive Fault where
  /-- Raised by `step` when the status is Idle: the host has not called `run` or `step` yet. Safe: no state results. -/
  | notStarted
  /-- Raised by `step` when a HLT at `haltPC` has ended the run. Safe: no state results. -/
  | runHalted (haltPC : Nat)
  /-- Raised by `step` when error `err` has ended the run; it is final (60_exceptions.md R119). Safe: no state results. -/
  | runFaulted (err : ErrorRecord)
  deriving DecidableEq, Repr

/-- Why an instruction has no meaning in the model. -/
inductive Refusal where
  /-- An arm of `exec` not modelled yet, by its mnemonic. Safe: no state results. No arm raises it. -/
  | notModelled (mnemonic : String)
  deriving DecidableEq, Repr

/-- The machine after construction with configuration `c` (70_reset_and_hazards.md R130). -/
def State.construct (c : Config) : State where
  cfg := c
  regs := #v[0x00, 0x00, 0x00, 0x00, 0x00, 0x00, 0x00, 0xF4]
  pc := 0
  fl := 0x00
  ir := none
  status := .idle
  mem := Memory.empty
  out := []

/-- The machine right after reset, in the default configuration (70_reset_and_hazards.md R130; 00_scope.md R9, R10). -/
def State.reset : State := State.construct Config.default

end Sys2Proof.Machine
end

