-- ==== Sys2Proof/Machine/Flags.lean ====
section
/-! DEFINITION. The flags register FL: its fields and the one flag computation (10_state.md R24; 42_alu.md R93, R94). -/

namespace Sys2Proof.Machine

/-- FL with only E set: regA = regB. -/
def flagE : Byte := 0b00000001

/-- FL with only G set: regA > regB. -/
def flagG : Byte := 0b00000010

/-- FL with only L set: regA < regB. -/
def flagL : Byte := 0b00000100

/-- The Equal flag, bit 0 of FL, which JEQ and JNE test (10_state.md R24, R26). -/
def State.flagEqual (s : State) : Bool := s.fl.getLsbD 0

/-- The Greater-than flag, bit 1 of FL. No instruction reads it. -/
def State.flagGreater (s : State) : Bool := s.fl.getLsbD 1

/-- The Less-than flag, bit 2 of FL. No instruction reads it. -/
def State.flagLess (s : State) : Bool := s.fl.getLsbD 2

/-- The flags byte of a comparison, unsigned (42_alu.md R84, R94). -/
def compareFlags (a b : Byte) : Byte :=
  if a.toNat < b.toNat then flagL else if a.toNat > b.toNat then flagG else flagE

/-- FL's legal values: no flag set, or exactly one of E, G, L; bits 7:3 are 0 (10_state.md R24, R25, R27). -/
def flagsLegal (fl : Byte) : Bool := fl == 0 || fl == flagE || fl == flagG || fl == flagL

end Sys2Proof.Machine
end

