-- ==== Sys2Proof/Machine/Operands.lean ====
section
/-! DEFINITION. Operands and the register file: the register-index checker, register reads and writes, SP
(10_state.md R16 to R19; 40_cycle.md R71, R79). -/

namespace Sys2Proof.Machine

/-- The register-index checker `checkReg` (00_scope.md R12; 30_encoding.md R55): no bit of the byte is ignored. -/
def checkReg (b : Byte) : Except ErrorKind (Fin 8) :=
  if h : b.toNat < 8 then .ok ⟨b.toNat, h⟩ else .error (.invalidRegister b)

/-- The operand byte that names register `r`. -/
def regByte (r : Fin 8) : Byte := BitVec.ofNat 8 r.val

/-- `x[r]`: the value of register `r` (00_scope.md R12). -/
def State.reg (s : State) (r : Fin 8) : Byte := s.regs[r.val]

/-- `x[r] <- v`. No register is hardwired (10_state.md R18). -/
def State.setReg (s : State) (r : Fin 8) (v : Byte) : State := { s with regs := s.regs.set r.val v }

/-- `SP_INDEX`: register 7 is the stack pointer (00_scope.md R7; 10_state.md R17). -/
def spIndex : Fin 8 := 7

/-- `SP`, which is `x[7]` (00_scope.md R12). -/
def State.sp (s : State) : Byte := s.reg spIndex

end Sys2Proof.Machine
end

