-- ==== Sys2Proof/Machine/Ops.lean ====
section
/-! DEFINITION. The named operations the instruction rules are written with (00_scope.md R12): the memory address checker
and the checked accesses, the stack-pointer update, `pc <- target`, `FL <- v`, `emit`, and taking an error. There is no
return from an error beside it: no trap-return instruction exists and Faulted is final (60_exceptions.md R119, R120). -/

namespace Sys2Proof.Machine

/-- What a meaning answers. -/
abbrev Result := Host.Outcome State Fault Refusal

/-- The byte memory holds at an address. -/
def State.byte (s : State) (a : Nat) : Byte := s.mem.get a

/-- `mem[a] <- v`. -/
def State.setByte (s : State) (a : Nat) (v : Byte) : State := { s with mem := s.mem.set a v }

/-- The memory address checker (20_memory.md R37): an integer address is accepted iff it is in `[0, 256)`. -/
def checkAddr (a : Int) : Except ErrorKind Nat :=
  if 0 ≤ a ∧ a < 256 then .ok a.toNat else .error (.outOfBounds a)

/-- `MemRead(a, 1)` (20_memory.md R38). -/
def memRead (a : Int) (s : State) : Except ErrorKind Byte :=
  match checkAddr a with
  | .ok n => .ok (s.byte n)
  | .error e => .error e

/-- `MemWrite(a, 1, v)` (20_memory.md R39). Its value is a byte already, so nothing is masked (C7, D8). -/
def memWrite (a : Int) (v : Byte) (s : State) : Except ErrorKind State :=
  match checkAddr a with
  | .ok n => .ok (s.setByte n v)
  | .error e => .error e

/-- `spSet(v)`: every change of SP by PUSH, POP, CALL and RET goes through it (43_stack.md R100; D7, log 9). -/
def spSet (v : Int) (s : State) : Except ErrorKind State :=
  if v < 0 ∨ 256 ≤ v then .error (.outOfBounds v) else .ok (s.setReg spIndex (narrowInt v))

/-- The SP value before a push, `SP - 1`, an integer that may be -1 (00_scope.md R11). -/
def State.spBelow (s : State) : Int := (s.sp.toNat : Int) - 1

/-- The SP value after a pop, `SP + 1`, an integer that may be 256. -/
def State.spAbove (s : State) : Int := (s.sp.toNat : Int) + 1

/-- `pc <- target`. PC is never wrapped (10_state.md R22). -/
def State.setPc (s : State) (target : Nat) : State := { s with pc := target }

/-- `FL <- v`. -/
def State.setFl (s : State) (v : Byte) : State := { s with fl := v }

/-- `emit(v)`: append a byte to the output log (10_state.md R32). -/
def State.emit (s : State) (v : Byte) : State := { s with out := s.out ++ [v] }

/-- `status <- v` (10_state.md R30). -/
def State.setStatus (s : State) (v : Status) : State := { s with status := v }

/-- Start, or go on, running: what the host's `run` and `step` do first (40_cycle.md R77; 70_reset_and_hazards.md R135). -/
def State.setRunning (s : State) : State := s.setStatus .running

/-- `IR <- v` (10_state.md R29). -/
def State.setIr (s : State) (v : Byte) : State := { s with ir := some v }

/-- Taking an error: "`mem`, `x`, `FL`, `pc` and `out` keep the values they had before the instruction, and
`status <- Faulted(err)`. Nothing else happens" (60_exceptions.md R118). The record's `pc` is the address of the
instruction, which PC still holds (R111; 10_state.md R21). -/
def raise (k : ErrorKind) (s : State) : Result :=
  .next (s.setStatus (.faulted { kind := k, pc := some s.pc }))

/-- Atomic commit (40_cycle.md R74): the handler's effects take place together, and only if it raised no error. -/
def commit (s : State) : Except ErrorKind State → Result
  | .ok t => .next t
  | .error k => raise k s

end Sys2Proof.Machine
end

