-- ==== Sys2Proof/Machine/Alu.lean ====
section
/-! DEFINITION. The ALU and the arithmetic and logic instructions (42_alu.md). -/

namespace Sys2Proof.Machine

/-- The operations the ALU supports in a configuration (42_alu.md R85). -/
def aluSupports (c : Config) : AluOp → Bool
  | .add | .mul | .and | .or | .xor | .cmp => true
  | .sub | .div | .mod | .not => c.extAlu

/-- The result of a supported operation on two bytes; for CMP a flags byte (42_alu.md R84). Arithmetic is exact, then
narrowed to a byte (R86). -/
def aluResult (op : AluOp) (a b : Byte) : Except ErrorKind Byte :=
  match op with
  | .add => .ok (narrow (a.toNat + b.toNat))
  | .mul => .ok (narrow (a.toNat * b.toNat))
  | .and => .ok (a &&& b)
  | .or => .ok (a ||| b)
  | .xor => .ok (a ^^^ b)
  | .cmp => .ok (compareFlags a b)
  | .sub => .ok (narrowInt ((a.toNat : Int) - (b.toNat : Int)))
  | .div => if b.toNat = 0 then .error .divideByZero else .ok (narrow (a.toNat / b.toNat))
  | .mod => if b.toNat = 0 then .error .divideByZero else .ok (narrow (a.toNat % b.toNat))
  | .not => .ok (~~~a)

/-- `alu(op, a, b)` (42_alu.md R84, R85): an operation outside the set fails with UnsupportedALUOperation. -/
def alu (c : Config) (op : AluOp) (a b : Byte) : Except ErrorKind Byte :=
  if aluSupports c op then aluResult op a b else .error (.unsupportedAluOperation op)

/-- The common form of the two-register instructions (42_alu.md R87): both registers are read before regA is written. -/
def aluTwoRegisters (op : AluOp) (ra rb : Byte) (s : State) : Except ErrorKind State := do
  let a ← checkReg ra
  let b ← checkReg rb
  let v ← alu s.cfg op (s.reg a) (s.reg b)
  .ok ((s.setReg a v).setPc (s.pc + 3))

/-- ADD: `x[A] <- (x[A] + x[B]) mod 256` (42_alu.md R88). -/
def execAdd (ra rb : Byte) (s : State) : Result := commit s (aluTwoRegisters .add ra rb s)

/-- MUL: `x[A] <- (x[A] * x[B]) mod 256` (42_alu.md R89). -/
def execMul (ra rb : Byte) (s : State) : Result := commit s (aluTwoRegisters .mul ra rb s)

/-- AND (42_alu.md R90). -/
def execAnd (ra rb : Byte) (s : State) : Result := commit s (aluTwoRegisters .and ra rb s)

/-- OR (42_alu.md R91). -/
def execOr (ra rb : Byte) (s : State) : Result := commit s (aluTwoRegisters .or ra rb s)

/-- XOR (42_alu.md R92). -/
def execXor (ra rb : Byte) (s : State) : Result := commit s (aluTwoRegisters .xor ra rb s)

/-- CMP: `FL <- alu(CMP, x[A], x[B])`, all 8 bits (42_alu.md R93). -/
def execCmp (ra rb : Byte) (s : State) : Result := commit s do
  let a ← checkReg ra
  let b ← checkReg rb
  let v ← alu s.cfg .cmp (s.reg a) (s.reg b)
  .ok ((s.setFl v).setPc (s.pc + 3))

/-- SUB: `x[A] <- (x[A] - x[B]) mod 256`, with `EXT_ALU` (42_alu.md R95). -/
def execSub (ra rb : Byte) (s : State) : Result := commit s (aluTwoRegisters .sub ra rb s)

/-- DIV: `x[A] <- floor(x[A] / x[B])`, with `EXT_ALU`; a zero divisor raises DivideByZero (42_alu.md R96). -/
def execDiv (ra rb : Byte) (s : State) : Result := commit s (aluTwoRegisters .div ra rb s)

/-- MOD: `x[A] <- x[A] mod x[B]`, with `EXT_ALU`; a zero divisor raises DivideByZero (42_alu.md R97). -/
def execMod (ra rb : Byte) (s : State) : Result := commit s (aluTwoRegisters .mod ra rb s)

/-- NOT: `x[A] <- alu(NOT, x[A], 0)`, with `EXT_ALU` (42_alu.md R98). -/
def execNot (ra : Byte) (s : State) : Result := commit s do
  let a ← checkReg ra
  let v ← alu s.cfg .not (s.reg a) 0
  .ok ((s.setReg a v).setPc (s.pc + 2))

end Sys2Proof.Machine
end

