-- ==== Sys2Proof/Machine/ControlFlow.lean ====
section
/-! DEFINITION. CALL, RET, JMP, JEQ and JNE (44_control_flow.md): they set PC directly (40_cycle.md R73). A target is
not checked here, only by the next fetch (R108). -/

namespace Sys2Proof.Machine

/-- The return address of a CALL at `p`, which must fit a memory cell (44_control_flow.md R103; D8, log 10). -/
def returnAddress (p : Nat) : Except ErrorKind Byte :=
  if 256 ≤ p + 2 then .error (.outOfBounds ((p + 2 : Nat) : Int)) else .ok (narrow (p + 2))

/-- CALL: `spSet(x[7] - 1)`, the return address, `MemWrite(x[7], 1, ret)`, then `pc <- x[A]` (44_control_flow.md R103).
`CALL R7` jumps to the decremented SP. -/
def execCall (ra : Byte) (s : State) : Result := commit s do
  let a ← checkReg ra
  let s1 ← spSet s.spBelow s
  let ret ← returnAddress s.pc
  let s2 ← memWrite s1.sp.toNat ret s1
  .ok (s2.setPc (s2.reg a).toNat)

/-- RET: `t <- MemRead(x[7], 1)`, `spSet(x[7] + 1)`, then `pc <- t` (44_control_flow.md R104). -/
def execRet (s : State) : Result := commit s do
  let t ← memRead s.sp.toNat s
  let s1 ← spSet s.spAbove s
  .ok (s1.setPc t.toNat)

/-- JMP: `pc <- x[A]` (44_control_flow.md R105). -/
def execJmp (ra : Byte) (s : State) : Result := commit s do
  let a ← checkReg ra
  .ok (s.setPc (s.reg a).toNat)

/-- A conditional jump: the target register is checked whether or not the jump is taken (44_control_flow.md R106, R107). -/
def jumpIf (taken : Bool) (ra : Byte) (s : State) : Except ErrorKind State := do
  let a ← checkReg ra
  .ok (s.setPc (if taken then (s.reg a).toNat else s.pc + 2))

/-- JEQ: jump if E is set (44_control_flow.md R106). -/
def execJeq (ra : Byte) (s : State) : Result := commit s (jumpIf s.flagEqual ra s)

/-- JNE: jump if E is clear (44_control_flow.md R107). -/
def execJne (ra : Byte) (s : State) : Result := commit s (jumpIf (!s.flagEqual) ra s)

end Sys2Proof.Machine
end

