-- ==== Sys2Proof/Machine/HaltLoadPrint.lean ====
section
/-! DEFINITION. HLT, LDI and PRN (41_halt_load_print.md). -/

namespace Sys2Proof.Machine

/-- HLT: `status <- Halted(p)`, `pc <- 0` (41_halt_load_print.md R80). -/
def execHlt (s : State) : Result := commit s (.ok ((s.setStatus (.halted s.pc)).setPc 0))

/-- LDI: `x[A] <- B`; the immediate is any byte, unchanged (41_halt_load_print.md R81). -/
def execLdi (ra imm : Byte) (s : State) : Result := commit s do
  let a ← checkReg ra
  .ok ((s.setReg a imm).setPc (s.pc + 3))

/-- PRN: `emit(x[A])` (41_halt_load_print.md R82). -/
def execPrn (ra : Byte) (s : State) : Result := commit s do
  let a ← checkReg ra
  .ok ((s.emit (s.reg a)).setPc (s.pc + 2))

end Sys2Proof.Machine
end

