-- ==== Sys2Proof/Machine/Stack.lean ====
section
/-! DEFINITION. PUSH and POP (43_stack.md). Their statements run in order: a later one sees the registers an earlier one
wrote (00_scope.md R12; D9, log 11). -/

namespace Sys2Proof.Machine

/-- PUSH: `spSet(x[7] - 1)`, then `MemWrite(x[7], 1, x[A])` (43_stack.md R101). `PUSH R7` pushes the decremented SP. -/
def execPush (ra : Byte) (s : State) : Result := commit s do
  let a ← checkReg ra
  let s1 ← spSet s.spBelow s
  let s2 ← memWrite s1.sp.toNat (s1.reg a) s1
  .ok (s2.setPc (s.pc + 2))

/-- POP: `v <- MemRead(x[7], 1)`, `x[A] <- v`, then `spSet(x[7] + 1)` (43_stack.md R102). `POP R7` leaves `SP = v + 1`. -/
def execPop (ra : Byte) (s : State) : Result := commit s do
  let a ← checkReg ra
  let v ← memRead s.sp.toNat s
  let s1 := s.setReg a v
  let s2 ← spSet s1.spAbove s1
  .ok (s2.setPc (s.pc + 2))

end Sys2Proof.Machine
end

