-- ==== Sys2Proof/Machine/Fetch.lean ====
section
/-! DEFINITION. The sequencer's fetch, dispatch and operand fetch (40_cycle.md R68 to R70, R76), the instruction register,
and placing an instruction where the next step fetches it. -/

namespace Sys2Proof.Machine

/-- Read `n` operand bytes from address `a` on, at increasing addresses (40_cycle.md R70). -/
def fetchOperands (s : State) (a : Nat) : Nat → Except ErrorKind (List Byte)
  | 0 => .ok []
  | n + 1 => do
    let b ← memRead a s
    let rest ← fetchOperands s (a + 1) n
    .ok (b :: rest)

/-- Fetch, dispatch, operand fetch (40_cycle.md R76): the opcode byte and the instruction, or the first error. No operand
byte is read before the opcode is looked up (R69), and exactly as many are read as the row has (R70). -/
def fetch (s : State) : Except ErrorKind (Byte × Instr) := do
  let op ← memRead s.pc s
  match dispatch s.cfg op with
  | none => .error (.invalidOpcode op)
  | some m =>
    let bs ← fetchOperands s (s.pc + 1) m.format.operandCount
    .ok (op, m.build (bs.getD 0 0) (bs.getD 1 0))

/-- The bytes of memory from the program counter on, at most the three of the longest instruction; fewer where memory ends. -/
def State.bytesAtPc (s : State) : List Byte :=
  ([s.pc, s.pc + 1, s.pc + 2].filter (· < memSize)).map s.byte

/-- IR holds the opcode byte of the instruction a step executed. Where the step raised an error IR keeps its value: "s is
unchanged except s.status <- Faulted(err)" (40_cycle.md R74, R76; log 2). -/
def latchIr (op : Byte) : Result → Result
  | .next t => .next (if t.status.isFaulted then t else t.setIr op)
  | .fault f => .fault f
  | .refused r => .refused r

/-- The configuration with `EXT_ALU = true` if the opcode byte is absent without it and present with it. -/
def configForOpcode (c : Config) (op : Byte) : Config :=
  if (dispatch c op).isNone && (dispatch { c with extAlu := true } op).isSome then { c with extAlu := true } else c

/-- Put the three bytes of an instruction word where the next step fetches, and make that step one that runs them: the
status Running, `EXT_ALU` on for an opcode that needs it, and PC at 0 if the three bytes do not fit above it (log 5). -/
def placeWord (s : State) (nbits w : Nat) : State :=
  let bytes := wordBytes nbits w
  let p := if s.pc + 3 ≤ memSize then s.pc else 0
  { s with
    cfg := configForOpcode s.cfg (bytes.getD 0 0)
    pc := p
    status := .running
    mem := s.mem.setAll p bytes }

end Sys2Proof.Machine
end

