-- ==== Sys2Proof/Machine/Step.lean ====
section
/-! DEFINITION. One step of the machine (40_cycle.md R66, R67, R76). -/

namespace Sys2Proof.Machine

/-- One step: enabled only when the status is Running (R67). It fetches an instruction, runs its handler and leaves the
opcode byte in IR; an error in any phase is taken (R74). In any other status the machine has no step (log 4). -/
def step (s : State) : Host.Outcome State Fault Refusal :=
  match s.status with
  | .idle => .fault .notStarted
  | .halted haltPC => .fault (.runHalted haltPC)
  | .faulted err => .fault (.runFaulted err)
  | .running =>
    match fetch s with
    | .error k => raise k s
    | .ok (op, i) => latchIr op (exec i s)

/-- `s` with an instruction word of the opcode table stored where the next step fetches it, so that the next step runs it. -/
def State.withFetchWord (s : State) (nbits w : Nat) : State := placeWord s nbits w

end Sys2Proof.Machine
end

