-- ==== Sys2Proof/Machine/Console.lean ====
section
/-! DEFINITION. The rendering of the output log on the console (41_halt_load_print.md R83; D13, log 20). No instruction reads it. -/

namespace Sys2Proof.Machine

/-- The decimal digits of a byte, most significant first, with no leading zeros. -/
def decimalDigits (v : Byte) : List Nat :=
  let n := v.toNat
  if n < 10 then [n] else if n < 100 then [n / 10, n % 10] else [n / 100, n / 10 % 10, n % 10]

/-- One line of output: the decimal digits of the byte, then a line feed (`0x0A`). -/
def consoleLine (v : Byte) : List Char := (decimalDigits v).map Nat.digitChar ++ [Char.ofNat 0x0A]

/-- The console's text for an output log: one line per PRN, in execution order (10_state.md R32). -/
def consoleText (out : List Byte) : List Char := out.flatMap consoleLine

end Sys2Proof.Machine
end

