-- ==== Sys2Proof/Machine/HostOps.lean ====
section
/-! DEFINITION. The host's operations on a constructed machine: `load`, `run` and `step` (70_reset_and_hazards.md; 40_cycle.md
R77). Construction is `State.construct`, read-out is the state itself. -/

namespace Sys2Proof.Machine

/-- One element of what is given to `load`: an integer, or a token that is no integer at all (70_reset_and_hazards.md R133). -/
inductive Token where
  | int (z : Int)
  | notInteger
  deriving DecidableEq, Repr

/-- What is given to `load`: an unreadable source, or a sequence of elements (R133). -/
inductive Image where
  | unreadable
  | tokens (ts : List Token)
  deriving DecidableEq, Repr

/-- The byte an element is, if it is an integer in `[0, 256)`. -/
def Token.byte? : Token → Option Byte
  | .int z => if 0 ≤ z ∧ z < 256 then some (narrowInt z) else none
  | .notInteger => none

/-- The position of the first element that is no byte, counting from `k` (log 23). -/
def firstBad (k : Nat) : List Token → Option Nat
  | [] => none
  | t :: ts => if t.byte?.isNone then some k else firstBad (k + 1) ts

/-- The answer of `load`. A failure or a refusal gives no state: the machine is unchanged (R133, R134). -/
inductive LoadResult where
  /-- The image is written. -/
  | loaded (s : State)
  /-- LoadError or OutOfBounds, with nothing written (R133). -/
  | failed (k : ErrorKind)
  /-- The machine is faulted: the recorded error, unchanged (R134; 60_exceptions.md R119). -/
  | refused (err : ErrorRecord)
  /-- The machine is inside a run, where `load` never happens (R134; log 24). -/
  | busy
  deriving DecidableEq, Repr

/-- Check the whole image, then write it from address 0 on (70_reset_and_hazards.md R132, R133). -/
def loadImage (img : Image) (s : State) : LoadResult :=
  match img with
  | .unreadable => .failed (.loadError none)
  | .tokens ts =>
    match firstBad 0 ts with
    | some i => .failed (.loadError (some i))
    | none =>
      if memSize < ts.length then .failed (.outOfBounds 256)
      else .loaded { s with mem := s.mem.setAll 0 (ts.filterMap Token.byte?) }

/-- `load`: accepted when the status is Idle or Halted, refused on a faulted machine (70_reset_and_hazards.md R134). -/
def load (img : Image) (s : State) : LoadResult :=
  match s.status with
  | .faulted err => .refused err
  | .running => .busy
  | .idle => loadImage img s
  | .halted _ => loadImage img s

/-- The image whose elements are these bytes. -/
def Image.ofBytes (bs : List Byte) : Image := .tokens (bs.map fun b => .int b.toNat)

/-- The loop of `run`, "while status = Running: step", for at most `n` steps (40_cycle.md R77; log 28): the loop ends where
the machine has no step. A state that is still Running is one whose run goes on after `n` steps. -/
def runLoop : Nat → State → State
  | 0, s => s
  | n + 1, s =>
    match step s with
    | .next t => runLoop n t
    | .fault _ => s
    | .refused _ => s

/-- `run()` for at most `n` steps: a faulted machine answers its error and executes nothing (40_cycle.md R77;
60_exceptions.md R119). -/
def hostRun (n : Nat) (s : State) : State :=
  if s.status.isFaulted then s else runLoop n s.setRunning

/-- `step()`: on a faulted machine nothing; else set the status Running and execute one step (70_reset_and_hazards.md
R135). The new status is the answer's `status`. -/
def hostStep (s : State) : State :=
  if s.status.isFaulted then s else runLoop 1 s.setRunning

end Sys2Proof.Machine
end

