-- ==== Sys2Proof/Safety.lean ====
section
/-! DEFINITION. What the claims call a legal state and a safe run. -/

namespace Sys2Proof.Machine

/-- The status agrees with the rest of the state: after a HLT PC is 0 and the halt address is an address (10_state.md R23,
41_halt_load_print.md R80); after an error PC is the recorded address (60_exceptions.md R111, R118). -/
def statusLegal (s : State) : Bool :=
  match s.status with
  | .idle | .running => true
  | .halted haltPC => haltPC < memSize && s.pc == 0
  | .faulted err => err.pc == some s.pc

/-- A legal state: what holds after construction and what every step and host operation keeps. -/
structure Inv (s : State) : Prop where
  /-- Memory is in its canonical form, inside 256 cells (10_state.md R31). -/
  memory : s.mem.wf = true
  /-- `0 <= pc <= 256` (40_cycle.md R78). -/
  pcRange : s.pc ≤ memSize
  /-- No flag set or exactly one; bits 7:3 are 0 (10_state.md R24, R25). -/
  flags : flagsLegal s.fl = true
  /-- The opcode table gives different rows different bytes (30_encoding.md R59). -/
  opcodes : s.cfg.wf
  /-- The status agrees with PC. -/
  status : statusLegal s = true

/-- No error is raised in the first `n` steps of a run from `s` (70_reset_and_hazards.md R141). -/
def SafeFor (n : Nat) (s : State) : Prop := ∀ k ≤ n, (runLoop k s).status.isFaulted = false

/-- The run from `s` ends successfully within `n` steps, at a HLT (70_reset_and_hazards.md R141). -/
def HaltsWithin (n : Nat) (s : State) : Prop := ∃ haltPC, (runLoop n s).status = .halted haltPC

end Sys2Proof.Machine
end

