-- ==== Sys2Proof/Certificates/Slice0/Obligations.lean ====
section
/-! DEFINITION. The statements about the machine. `regByte r` is the operand byte that names register `r`; a statement over
`ra : Fin 8` with `regByte ra` therefore covers every legal register operand and no other. Where a statement rests on one
of the spec's own decisions (92_eei_decisions.md D<n>), its docstring names it. -/

open Sys2Proof Sys2Proof.Machine

/-! ## Reset -/

/-- "Reset value: `PC = 0`. After a HLT, PC is again 0" (10_state.md R23). -/
def Obligations.PcIsZeroAtResetAndAfterHalt : Prop :=
  State.reset.pc = 0 ∧ (∀ c : Config, (State.construct c).pc = 0) ∧
    ∀ s : State, ∃ t, exec .hlt s = .next t ∧ t.pc = 0

/-- The state after construction (70_reset_and_hazards.md, reset table). SP and PC are the source's values. The
zeros of R0 to R6, FL and memory are the spec's decisions D3, D4, D5 (log 7); the unset IR is D11 (log 3), the Idle status
D12 (log 19), the empty output log D13 (log 20). Construction takes any configuration, and the one of State.reset has
`EXT_ALU = false`, the default, which is the spec's D2 (log 13). -/
def Obligations.ResetValues : Prop :=
  ∀ c : Config, let s := State.construct c
    s.cfg = c ∧ (∀ r : Fin 8, s.reg r = if r = 7 then 0xF4 else 0x00) ∧ s.pc = 0 ∧ s.fl = 0x00 ∧ s.ir = none ∧
      s.status = .idle ∧ (∀ a : Nat, a < 256 → s.byte a = 0x00) ∧ s.out = [] ∧
      State.reset.cfg.extAlu = false

/-! ## What each instruction does -/

/-- HLT: status := Halted(p), pc := 0, nothing else (41_halt_load_print.md, HLT; the Halted status is the spec's D12). -/
def Obligations.HaltResult : Prop :=
  ∀ s : State, exec .hlt s = .next { s with status := .halted s.pc, pc := 0 }

/-- LDI: "reg := imm8", any register, any immediate byte, unchanged (41_halt_load_print.md, LDI). -/
def Obligations.LoadImmediateResult : Prop :=
  ∀ (s : State) (ra : Fin 8) (imm : Byte),
    exec (.ldi (regByte ra) imm) s = .next { s with regs := s.regs.set ra.val imm, pc := s.pc + 3 }

/-- PRN appends the register's byte to the output log (41_halt_load_print.md, PRN). -/
def Obligations.PrintResult : Prop :=
  ∀ (s : State) (ra : Fin 8),
    exec (.prn (regByte ra)) s = .next { s with out := s.out ++ [s.reg ra], pc := s.pc + 2 }

/-- ADD: "regA := regA + regB (mod 256)", also for regA = regB and for R7; no flag (42_alu.md, ADD). -/
def Obligations.AddResult : Prop :=
  ∀ (s : State) (ra rb : Fin 8), ∃ v : Byte, v.toNat = ((s.reg ra).toNat + (s.reg rb).toNat) % 256 ∧
    exec (.add (regByte ra) (regByte rb)) s = .next { s with regs := s.regs.set ra.val v, pc := s.pc + 3 }

/-- MUL: "regA := regA * regB (mod 256)" (42_alu.md, MUL). -/
def Obligations.MulResult : Prop :=
  ∀ (s : State) (ra rb : Fin 8), ∃ v : Byte, v.toNat = ((s.reg ra).toNat * (s.reg rb).toNat) % 256 ∧
    exec (.mul (regByte ra) (regByte rb)) s = .next { s with regs := s.regs.set ra.val v, pc := s.pc + 3 }

/-- AND, OR and XOR, bit by bit (42_alu.md, AND, OR, XOR). -/
def Obligations.BitwiseResults : Prop :=
  ∀ (s : State) (ra rb : Fin 8),
    (∃ v : Byte, (∀ k, k < 8 → v.getLsbD k = ((s.reg ra).getLsbD k && (s.reg rb).getLsbD k)) ∧
      exec (.and (regByte ra) (regByte rb)) s = .next { s with regs := s.regs.set ra.val v, pc := s.pc + 3 }) ∧
    (∃ v : Byte, (∀ k, k < 8 → v.getLsbD k = ((s.reg ra).getLsbD k || (s.reg rb).getLsbD k)) ∧
      exec (.or (regByte ra) (regByte rb)) s = .next { s with regs := s.regs.set ra.val v, pc := s.pc + 3 }) ∧
    (∃ v : Byte, (∀ k, k < 8 → v.getLsbD k = ((s.reg ra).getLsbD k ^^ (s.reg rb).getLsbD k)) ∧
      exec (.xor (regByte ra) (regByte rb)) s = .next { s with regs := s.regs.set ra.val v, pc := s.pc + 3 })

/-- The FL value CMP writes, for every ordered pair of register values, unsigned; CMP completes and writes nothing else but
PC (42_alu.md R94). -/
def Obligations.CompareResult : Prop :=
  ∀ (s : State) (ra rb : Fin 8),
    (s.reg ra = s.reg rb →
      exec (.cmp (regByte ra) (regByte rb)) s = .next { s with fl := 0b00000001, pc := s.pc + 3 }) ∧
    ((s.reg rb).toNat < (s.reg ra).toNat →
      exec (.cmp (regByte ra) (regByte rb)) s = .next { s with fl := 0b00000010, pc := s.pc + 3 }) ∧
    ((s.reg ra).toNat < (s.reg rb).toNat →
      exec (.cmp (regByte ra) (regByte rb)) s = .next { s with fl := 0b00000100, pc := s.pc + 3 })

/-- SUB with `EXT_ALU`: regA := regA - regB (mod 256) (42_alu.md, SUB; the spec's decision D2). -/
def Obligations.SubResult : Prop :=
  ∀ (s : State) (ra rb : Fin 8), s.cfg.extAlu = true →
    ∃ v : Byte, (v.toNat : Int) = (((s.reg ra).toNat : Int) - ((s.reg rb).toNat : Int)) % 256 ∧
      exec (.sub (regByte ra) (regByte rb)) s = .next { s with regs := s.regs.set ra.val v, pc := s.pc + 3 }

/-- DIV with `EXT_ALU` and a divisor that is not 0: regA := floor(regA / regB) (42_alu.md, DIV; the spec's D2, D14). -/
def Obligations.DivideResult : Prop :=
  ∀ (s : State) (ra rb : Fin 8), s.cfg.extAlu = true → s.reg rb ≠ 0 →
    ∃ v : Byte, v.toNat = (s.reg ra).toNat / (s.reg rb).toNat ∧
      exec (.div (regByte ra) (regByte rb)) s = .next { s with regs := s.regs.set ra.val v, pc := s.pc + 3 }

/-- MOD with `EXT_ALU` and a divisor that is not 0: regA := regA mod regB (42_alu.md, MOD; the spec's D2, D14). -/
def Obligations.RemainderResult : Prop :=
  ∀ (s : State) (ra rb : Fin 8), s.cfg.extAlu = true → s.reg rb ≠ 0 →
    ∃ v : Byte, v.toNat = (s.reg ra).toNat % (s.reg rb).toNat ∧
      exec (.mod (regByte ra) (regByte rb)) s = .next { s with regs := s.regs.set ra.val v, pc := s.pc + 3 }

/-- NOT with `EXT_ALU`: every bit of the register is complemented (42_alu.md, NOT; the spec's decision D2). -/
def Obligations.ComplementResult : Prop :=
  ∀ (s : State) (ra : Fin 8), s.cfg.extAlu = true →
    ∃ v : Byte, (∀ k, k < 8 → v.getLsbD k = !(s.reg ra).getLsbD k) ∧
      exec (.not (regByte ra)) s = .next { s with regs := s.regs.set ra.val v, pc := s.pc + 2 }

/-- PUSH with SP above 0: "SP := SP-1; Memory[SP] := reg value". `PUSH R7` pushes the decremented SP (43_stack.md, PUSH;
the order of the effects is the spec's decision D9). -/
def Obligations.PushResult : Prop :=
  ∀ (s : State) (ra : Fin 8) (new : Byte), new.toNat + 1 = s.sp.toNat →
    exec (.push (regByte ra)) s =
      .next { s with regs := s.regs.set 7 new, pc := s.pc + 2
                     mem := s.mem.set new.toNat (if ra = 7 then new else s.reg ra) }

/-- POP into a register other than R7, with SP below 0xFF: "reg := Memory[SP]; SP := SP+1". POP into R7 leaves the popped
byte plus 1 in SP, where that is a byte (43_stack.md, POP; the spec's decisions D7, D9). -/
def Obligations.PopResult : Prop :=
  ∀ (s : State) (new : Byte),
    (∀ ra : Fin 8, ra ≠ 7 → new.toNat = s.sp.toNat + 1 →
      exec (.pop (regByte ra)) s =
        .next { s with regs := (s.regs.set ra.val (s.byte s.sp.toNat)).set 7 new, pc := s.pc + 2 }) ∧
    (new.toNat = (s.byte s.sp.toNat).toNat + 1 →
      exec (.pop (regByte 7)) s = .next { s with regs := s.regs.set 7 new, pc := s.pc + 2 })

/-- CALL with SP above 0 and its return address below 256: "SP := SP-1; Memory[SP] := PC+2; PC := value in reg". `CALL R7`
jumps to the decremented SP (44_control_flow.md, CALL; the spec's decisions D8, D9). -/
def Obligations.CallResult : Prop :=
  ∀ (s : State) (ra : Fin 8) (new ret : Byte), new.toNat + 1 = s.sp.toNat → ret.toNat = s.pc + 2 →
    exec (.call (regByte ra)) s =
      .next { s with regs := s.regs.set 7 new, mem := s.mem.set new.toNat ret
                     pc := if ra = 7 then new.toNat else (s.reg ra).toNat }

/-- RET with SP below 0xFF: "PC := Memory[SP]; SP := SP+1" (44_control_flow.md, RET; the bound is the spec's D7). -/
def Obligations.ReturnResult : Prop :=
  ∀ (s : State) (new : Byte), new.toNat = s.sp.toNat + 1 →
    exec .ret s = .next { s with regs := s.regs.set 7 new, pc := (s.byte s.sp.toNat).toNat }

/-- JMP: "PC := value in reg", whatever stands at the target (44_control_flow.md, JMP). -/
def Obligations.JumpResult : Prop :=
  ∀ (s : State) (ra : Fin 8), exec (.jmp (regByte ra)) s = .next { s with pc := (s.reg ra).toNat }

/-- JEQ jumps iff bit 0 of FL is 1, JNE iff it is 0; else "PC+=2". FL and all else stay (44_control_flow.md, JEQ, JNE). -/
def Obligations.ConditionalJumpResults : Prop :=
  ∀ (s : State) (ra : Fin 8),
    (s.fl.toNat % 2 = 1 →
      exec (.jeq (regByte ra)) s = .next { s with pc := (s.reg ra).toNat } ∧
      exec (.jne (regByte ra)) s = .next { s with pc := s.pc + 2 }) ∧
    (s.fl.toNat % 2 = 0 →
      exec (.jeq (regByte ra)) s = .next { s with pc := s.pc + 2 } ∧
      exec (.jne (regByte ra)) s = .next { s with pc := (s.reg ra).toNat })

/-! ## Errors -/

/-- A register byte of 8 or more raises InvalidRegister of that byte before the handler does anything, `A` before `B`, in
every instruction that has the operand, JEQ and JNE not taken among them (60_exceptions.md, InvalidRegister and priority;
the mandatory check, the order and the record are the spec's D15, D10, D11). -/
def Obligations.IllegalRegisterByteRaisesInvalidRegister : Prop :=
  ∀ (s : State) (a b : Byte),
    (8 ≤ a.toNat → ∀ i ∈ ([.ldi a b, .prn a, .push a, .pop a, .call a, .jmp a, .jeq a, .jne a, .not a, .add a b, .mul a b,
        .and a b, .or a b, .xor a b, .cmp a b, .sub a b, .div a b, .mod a b] : List Instr),
      exec i s = .next { s with status := .faulted { kind := .invalidRegister a, pc := some s.pc } }) ∧
    (a.toNat < 8 → 8 ≤ b.toNat → ∀ i ∈ ([.add a b, .mul a b, .and a b, .or a b, .xor a b, .cmp a b, .sub a b, .div a b,
        .mod a b] : List Instr),
      exec i s = .next { s with status := .faulted { kind := .invalidRegister b, pc := some s.pc } })

/-- A push of SP below 0 or a pop of SP above 255 raises OutOfBounds of the new SP and has no effect: PUSH and CALL with
SP = 0; RET, and POP into a register other than R7, with SP = 0xFF; POP into R7 of the byte 0xFF. CALL checks SP before its
return address, 256, which raises OutOfBounds at PC 254 (43_stack.md, stack-pointer update; 44_control_flow.md, CALL; the spec's
decisions D7, D8, D9, D10, D11). -/
def Obligations.StackErrorsRaiseOutOfBounds : Prop :=
  ∀ (s : State) (ra : Fin 8),
    (s.sp = 0 → ∀ i ∈ ([.push (regByte ra), .call (regByte ra)] : List Instr),
      exec i s = .next { s with status := .faulted { kind := .outOfBounds (-1), pc := some s.pc } }) ∧
    (s.sp = 0xFF →
      exec .ret s = .next { s with status := .faulted { kind := .outOfBounds 256, pc := some s.pc } } ∧
      (ra ≠ 7 → exec (.pop (regByte ra)) s =
        .next { s with status := .faulted { kind := .outOfBounds 256, pc := some s.pc } })) ∧
    (s.byte s.sp.toNat = 0xFF → exec (.pop (regByte 7)) s =
      .next { s with status := .faulted { kind := .outOfBounds 256, pc := some s.pc } }) ∧
    (s.pc = 254 → s.sp ≠ 0 → exec (.call (regByte ra)) s =
      .next { s with status := .faulted { kind := .outOfBounds 256, pc := some s.pc } })

/-- DIV and MOD by a register that holds 0 raise DivideByZero and have no effect (42_alu.md, DIV, MOD; the spec's D14, D11). -/
def Obligations.ZeroDivisorRaisesDivideByZero : Prop :=
  ∀ (s : State) (ra rb : Fin 8), s.cfg.extAlu = true → s.reg rb = 0 →
    ∀ i ∈ ([.div (regByte ra) (regByte rb), .mod (regByte ra) (regByte rb)] : List Instr),
      exec i s = .next { s with status := .faulted { kind := .divideByZero, pc := some s.pc } }

/-- Without `EXT_ALU` the ALU lacks SUB, DIV, MOD and NOT, and a handler that asks for one raises UnsupportedALUOperation
(42_alu.md, the ALU's operations; the record is the spec's D11; log 25). -/
def Obligations.MissingAluOperationIsUnsupported : Prop :=
  ∀ (s : State) (ra rb : Fin 8), s.cfg.extAlu = false →
    ∀ p ∈ ([(.sub (regByte ra) (regByte rb), .sub), (.div (regByte ra) (regByte rb), .div),
        (.mod (regByte ra) (regByte rb), .mod), (.not (regByte ra), .not)] : List (Instr × AluOp)),
      exec p.1 s = .next { s with status := .faulted { kind := .unsupportedAluOperation p.2, pc := some s.pc } }

/-- No program can cause UnsupportedALUOperation, nor, in a step, a LoadError (42_alu.md, the ALU's operations; marked
derived there; 60_exceptions.md, LoadError). -/
def Obligations.StepNeverRaisesUnsupportedOrLoadError : Prop :=
  ∀ (s t : State) (e : ErrorRecord), step s = .next t → t.status = .faulted e →
    (∀ op, e.kind ≠ .unsupportedAluOperation op) ∧ ∀ pos, e.kind ≠ .loadError pos

/-- A step that raises an error changes nothing but the status, and records the address of its instruction
(40_cycle.md, atomic commit; 60_exceptions.md, error entry; for errors other than InvalidOpcode the spec's decision D11,
log 16). That IR too keeps its old value is the model's reading of the spec (log 2). -/
def Obligations.ErrorsAreAtomicAndPrecise : Prop :=
  ∀ (s t : State) (e : ErrorRecord), step s = .next t → t.status = .faulted e →
    t = { s with status := .faulted e } ∧ e.pc = some s.pc

/-! ## The step -/

/-- A step runs the decoded instruction: when the bytes at the program counter decode to `i`, a step of a running machine
is `exec i`, after which IR holds the opcode byte (40_cycle.md, the step). Where the instruction raised an error IR keeps
its old value: that is the model's reading of the atomic commit and of the step's pseudocode (log 2). -/
def Obligations.StepRunsTheDecodedInstruction : Prop :=
  ∀ (s : State) (i : Instr) (rest : List Byte), s.status = .running → decode s.cfg s.bytesAtPc = .ok (i, rest) →
    ∃ t, exec i s = .next t ∧
      (t.status.isFaulted = false → step s = .next { t with ir := some (s.byte s.pc) }) ∧
      (t.status.isFaulted = true → step s = .next t)

/-- A machine has a step exactly when its status is Running; in the others it stops and names the status, and on a faulted
machine the host's `step` and `run` execute nothing (40_cycle.md, the step; 60_exceptions.md, Faulted is final; the
statuses are the spec's decision D12, the finality D19; the stop's form is the model's, log 4). -/
def Obligations.StepExistsExactlyWhenRunning : Prop :=
  ∀ s : State, ((∃ t, step s = .next t) ↔ s.status = .running) ∧
    (s.status = .idle → step s = .fault .notStarted) ∧
    (∀ h, s.status = .halted h → step s = .fault (.runHalted h)) ∧
    (∀ e, s.status = .faulted e → step s = .fault (.runFaulted e) ∧ hostStep s = s ∧ ∀ n, hostRun n s = s)

/-- Fetch: a step that raises no error leaves the byte at PC in IR; at a PC of 256 or more the fetch fails with
OutOfBounds(PC) (40_cycle.md R68). -/
def Obligations.FetchReadsTheByteAtPc : Prop :=
  ∀ s : State, s.status = .running →
    (s.pc < 256 → ∀ t, step s = .next t → t.status.isFaulted = false → t.ir = some (s.byte s.pc)) ∧
    (256 ≤ s.pc → ∃ t e, step s = .next t ∧ t.status = .faulted e ∧ e.kind = .outOfBounds s.pc)

/-- "Fetching an opcode byte with no dispatch entry fails with InvalidOpcode, and no register/memory state changes as a
result", whether or not operand bytes would follow inside memory (60_exceptions.md R114). -/
def Obligations.UnknownOpcodeRaisesInvalidOpcode : Prop :=
  ∀ s : State, s.status = .running → s.pc < 256 → dispatch s.cfg (s.byte s.pc) = none →
    ∃ t, step s = .next t ∧ t.status = .faulted { kind := .invalidOpcode (s.byte s.pc), pc := some s.pc } ∧
      t.regs = s.regs ∧ t.mem = s.mem

/-- Operand fetch: exactly the `n` operand bytes after the opcode, `p + 1` then `p + 2`; an operand beyond 255 fails with
OutOfBounds(256): a two-byte instruction at 255, a three-byte one at 254 or 255, never one whose last byte is inside
(40_cycle.md, operand fetch). That the step then changes nothing but the status, and records PC, is the spec's decision D11
(log 16), and that IR too is unchanged the model's reading (log 2). -/
def Obligations.OperandFetchReadsExactlyTheOperands : Prop :=
  ∀ (s : State) (m : Mnemonic), s.pc < 256 → dispatch s.cfg (s.byte s.pc) = some m →
    (s.pc + m.format.operandCount < 256 → ∃ a b, fetch s = .ok (s.byte s.pc, m.build a b) ∧
      (1 ≤ m.format.operandCount → a = s.byte (s.pc + 1)) ∧ (m.format.operandCount = 2 → b = s.byte (s.pc + 2))) ∧
    (256 ≤ s.pc + m.format.operandCount → fetch s = .error (.outOfBounds 256) ∧
      (s.status = .running →
        step s = .next { s with status := .faulted { kind := .outOfBounds 256, pc := some s.pc } }))

/-! ## Frames: what an instruction leaves unchanged -/

/-- The instructions that write one register leave every other register, FL, memory, the output log, IR and the
configuration unchanged, and the status unless they raise an error (10_state.md; 41_halt_load_print.md; 42_alu.md). -/
def Obligations.RegisterWritersFrame : Prop :=
  ∀ (s t : State) (a b : Byte), ∀ i ∈ ([.ldi a b, .add a b, .mul a b, .and a b, .or a b, .xor a b, .sub a b, .div a b,
      .mod a b, .not a] : List Instr), exec i s = .next t →
    (∀ q : Fin 8, q.val ≠ a.toNat → t.reg q = s.reg q) ∧ t.fl = s.fl ∧ (∀ n : Nat, t.byte n = s.byte n) ∧
      t.out = s.out ∧ t.ir = s.ir ∧ t.cfg = s.cfg ∧ (t.status = s.status ∨ t.status.isFaulted = true)

/-- The instructions that write no register: HLT, PRN, CMP, JMP, JEQ, JNE leave every register, memory, IR and the
configuration unchanged; all but CMP leave FL, all but PRN the output log, all but HLT the status unless they raise an
error (10_state.md; 41_halt_load_print.md; 42_alu.md; 44_control_flow.md). -/
def Obligations.NoRegisterWrittenFrame : Prop :=
  ∀ (s t : State) (a b : Byte), ∀ i ∈ ([.hlt, .prn a, .cmp a b, .jmp a, .jeq a, .jne a] : List Instr), exec i s = .next t →
    (∀ q : Fin 8, t.reg q = s.reg q) ∧ (∀ n : Nat, t.byte n = s.byte n) ∧ t.ir = s.ir ∧ t.cfg = s.cfg ∧
      (i ≠ .cmp a b → t.fl = s.fl) ∧ (i ≠ .prn a → t.out = s.out) ∧
      (i ≠ .hlt → t.status = s.status ∨ t.status.isFaulted = true)

/-- PUSH and CALL write no register but R7 (the stack pointer), and of memory only the byte at the address `spSet` gives
for `SP - 1`: every other byte reads as before, and where `spSet` or the instruction raises an error every byte does. FL,
the output log, IR and the configuration stay (43_stack.md, PUSH; 44_control_flow.md, CALL). -/
def Obligations.StackWritersFrame : Prop :=
  ∀ (s t : State) (a : Byte), ∀ i ∈ ([.push a, .call a] : List Instr), exec i s = .next t →
    (∀ q : Fin 8, q ≠ 7 → t.reg q = s.reg q) ∧
      (∀ s1 : State, spSet s.spBelow s = .ok s1 → ∀ n : Nat, n ≠ s1.sp.toNat → t.byte n = s.byte n) ∧
      (∀ k : ErrorKind, spSet s.spBelow s = .error k → ∀ n : Nat, t.byte n = s.byte n) ∧
      (s.status.isFaulted = false → t.status.isFaulted = true → ∀ n : Nat, t.byte n = s.byte n) ∧
      t.fl = s.fl ∧ t.out = s.out ∧ t.ir = s.ir ∧ t.cfg = s.cfg ∧ (t.status = s.status ∨ t.status.isFaulted = true)

/-- POP writes no register but its operand and R7 (the stack pointer), RET none but R7; both leave memory, FL, the output
log, IR and the configuration unchanged (43_stack.md, POP; 44_control_flow.md, RET). -/
def Obligations.StackReadersFrame : Prop :=
  ∀ (s t : State) (a : Byte), ∀ i ∈ ([.pop a, .ret] : List Instr), exec i s = .next t →
    (∀ q : Fin 8, q ≠ 7 → (i = .pop a → q.val ≠ a.toNat) → t.reg q = s.reg q) ∧ (∀ n : Nat, t.byte n = s.byte n) ∧
      t.fl = s.fl ∧ t.out = s.out ∧ t.ir = s.ir ∧ t.cfg = s.cfg ∧ (t.status = s.status ∨ t.status.isFaulted = true)

/-! ## Rules about all instructions -/

/-- Every handler answers a next state: no instruction of either configuration stops the model (40_cycle.md, execute and
atomic commit). -/
def Obligations.EveryInstructionAnswersANextState : Prop := ∀ (i : Instr) (s : State), ∃ t, exec i s = .next t

/-- FL is "set exclusively as a side effect of the compare instruction, mutually exclusive (exactly one bit set after a
compare)": an instruction that changes FL is CMP, and CMP writes all 8 bits, exactly one of bits 0, 1, 2 being 1 and no
other (10_state.md R25). -/
def Obligations.FlagsAreSetExclusivelyByCompare : Prop :=
  (∀ (i : Instr) (s t : State), exec i s = .next t → t.fl ≠ s.fl → ∃ a b, i = .cmp a b) ∧
  ∀ (s : State) (ra rb : Fin 8), ∃ t k, exec (.cmp (regByte ra) (regByte rb)) s = .next t ∧ k < 3 ∧
    ∀ j, t.fl.getLsbD j = decide (j = k)

/-- "FL is read only by JEQ and JNE, which test bit E": changing FL before any other instruction, or any bit of it but bit
0 before any instruction, changes nothing but FL after it; CMP's new FL does not depend on the old (10_state.md R26). -/
def Obligations.FlagsAreReadOnlyByEqualityJumps : Prop :=
  ∀ (i : Instr) (s t : State) (v : Byte), exec i s = .next t →
    ((∀ a, i ≠ .jeq a ∧ i ≠ .jne a) ∨ v.getLsbD 0 = s.fl.getLsbD 0) →
    ∃ u, exec i { s with fl := v } = .next u ∧ { u with fl := t.fl } = t ∧
      (t.status.isFaulted = false → (∃ a b, i = .cmp a b) → u.fl = t.fl)

/-- The output log only grows, by one byte at a time, and only PRN writes it (10_state.md, output log; 41_halt_load_print.md,
PRN); nothing reads it. -/
def Obligations.OnlyPrintWritesTheOutputLog : Prop :=
  ∀ (i : Instr) (s t : State), exec i s = .next t →
    (t.out = s.out ∨ ∃ r : Fin 8, i = .prn (regByte r) ∧ t.out = s.out ++ [s.reg r]) ∧
    ∀ o : List Byte, ∃ u, exec i { s with out := o } = .next u ∧ { u with out := t.out } = t

/-- "No ALU instruction has any effect beyond its destination (regA, or FL for CMP) and PC: it does not read or write
memory, does not touch SP except when SP is named as regA or regB, and does not write FL (except CMP) or the output log"
(42_alu.md, after the EXT_ALU instructions). That one that raises an error has no effect but the status is the spec's
decision D11 (log 16). -/
def Obligations.AluInstructionsHaveNoOtherEffect : Prop :=
  ∀ (s t : State) (a b : Byte), ∀ i ∈ ([.add a b, .mul a b, .and a b, .or a b, .xor a b, .cmp a b, .sub a b, .div a b,
      .mod a b, .not a] : List Instr), exec i s = .next t →
    (∀ q : Fin 8, (i = .cmp a b ∨ q.val ≠ a.toNat) → t.reg q = s.reg q) ∧
    (i ≠ .cmp a b → t.fl = s.fl) ∧ t.mem = s.mem ∧ t.out = s.out ∧ t.ir = s.ir ∧ t.cfg = s.cfg ∧
    (t.status = s.status ∨ t = { s with status := t.status }) ∧
    (∀ m : Memory, exec i { s with mem := m } = .next { t with mem := m }) ∧
    (∀ v : Byte, a.toNat ≠ 7 → (b.toNat ≠ 7 ∨ i = .not a) →
      exec i { s with regs := s.regs.set 7 v } = .next { t with regs := t.regs.set 7 v })

/-- A run halts only by HLT: a step that halts executed a HLT, records its address and sets PC to 0, and leaves every other
part of the state but IR unchanged (41_halt_load_print.md, HLT; the status is the spec's decision D12). -/
def Obligations.OnlyHaltHalts : Prop :=
  ∀ (s t : State) (h : Nat), step s = .next t → t.status = .halted h →
    dispatch s.cfg (s.byte s.pc) = some .HLT ∧ h = s.pc ∧
      t = { s with status := .halted s.pc, pc := 0, ir := some (s.byte s.pc) }

/-- The configuration, and with it the dispatch table, is "immutable": no step, run, `step` or `load` changes it
(10_state.md, dispatch table and configuration; that State carries it is the model's choice, log 1). -/
def Obligations.ConfigurationIsImmutable : Prop :=
  (∀ s t : State, step s = .next t → t.cfg = s.cfg) ∧ (∀ (n : Nat) (s : State), (hostRun n s).cfg = s.cfg) ∧
    (∀ s : State, (hostStep s).cfg = s.cfg) ∧ ∀ (img : Image) (s t : State), load img s = .loaded t → t.cfg = s.cfg

/-- A PUSH followed by a POP into a register other than R7 leaves there the pushed value, and SP as before the pair
(43_stack.md, POP), for every memory in canonical form. The value `PUSH R7` pushes, the decremented SP, is the spec's
decision D9 (log 11). -/
def Obligations.PushThenPopReturnsTheValue : Prop :=
  ∀ (s : State) (ra rd : Fin 8), s.mem.wf = true → s.sp ≠ 0 → rd ≠ 7 →
    ∃ t u, exec (.push (regByte ra)) s = .next t ∧ exec (.pop (regByte rd)) t = .next u ∧
      (ra ≠ 7 → u.reg rd = s.reg ra) ∧ (ra = 7 → u.reg rd = t.sp) ∧ u.sp = s.sp ∧
      (∀ q : Fin 8, q ≠ rd → u.reg q = s.reg q) ∧ u.pc = s.pc + 4

/-- "CALL followed eventually by RET returns control to the instruction immediately after the CALL" provided the subroutine
leaves SP where CALL left it and does not overwrite the return address (44_control_flow.md, calling convention). -/
def Obligations.ReturnGoesBehindTheCall : Prop :=
  ∀ (s : State) (ra : Fin 8), s.mem.wf = true → s.sp ≠ 0 → s.pc < 254 →
    ∃ t, exec (.call (regByte ra)) s = .next t ∧
      ∀ u : State, u.sp = t.sp → u.byte u.sp.toNat = t.byte t.sp.toNat →
        ∃ v, exec .ret u = .next v ∧ v.pc = s.pc + 2 ∧ v.sp = s.sp

/-- A byte PUSH or CALL writes, the pushed value or the return address, is the opcode byte the next fetch of its address
reads (20_memory.md, instruction-fetch coherence; 70_reset_and_hazards.md, hazards; marked derived there). The value
`PUSH R7` pushes, the decremented SP, is the spec's decision D9 (log 11); a CALL whose return address is no byte writes
none, the spec's D8 (log 10). -/
def Obligations.PushedByteIsFetched : Prop :=
  ∀ (s t : State) (ra : Fin 8), s.mem.wf = true → s.sp ≠ 0 →
    (exec (.push (regByte ra)) s = .next t →
      ∀ u : State, u.mem = t.mem → u.cfg = s.cfg → u.pc = t.sp.toNat →
        (∀ op i, fetch u = .ok (op, i) → op = (if ra = 7 then t.sp else s.reg ra)) ∧
        (dispatch s.cfg (if ra = 7 then t.sp else s.reg ra) = none →
          fetch u = .error (.invalidOpcode (if ra = 7 then t.sp else s.reg ra)))) ∧
    (∀ ret : Byte, ret.toNat = s.pc + 2 → exec (.call (regByte ra)) s = .next t →
      ∀ u : State, u.mem = t.mem → u.cfg = s.cfg → u.pc = t.sp.toNat →
        (∀ op i, fetch u = .ok (op, i) → op = ret) ∧
        (dispatch s.cfg ret = none → fetch u = .error (.invalidOpcode ret)))

/-! ## Memory -/

/-- MemRead "returns the byte at `address`. Fails with an OutOfBounds error if `address` is not in `[0, 256)`"
(20_memory.md R38). -/
def Obligations.MemoryReadIsChecked : Prop :=
  ∀ (a : Int) (s : State), (0 ≤ a ∧ a < 256 → memRead a s = .ok (s.byte a.toNat)) ∧
    (¬(0 ≤ a ∧ a < 256) → memRead a s = .error (.outOfBounds a))

/-- MemWrite stores the byte at a checked address and nowhere else; it keeps the memory's canonical form (20_memory.md,
MemWrite and ordering; the canonical form is the model's choice, log 8). -/
def Obligations.MemoryWriteThenRead : Prop :=
  ∀ (a : Int) (v : Byte) (s : State), s.mem.wf = true →
    (0 ≤ a ∧ a < 256 → ∃ t, memWrite a v s = .ok t ∧ t.mem.wf = true ∧ t = { s with mem := t.mem } ∧
      ∀ n : Nat, t.byte n = if n = a.toNat then v else s.byte n) ∧
    (¬(0 ≤ a ∧ a < 256) → memWrite a v s = .error (.outOfBounds a))

/-- Memories in canonical form that read the same at every address are equal (10_state.md, memory; the canonical form is
the model's choice, log 8). -/
def Obligations.EqualMemoriesAreEqualData : Prop :=
  ∀ m m' : Memory, m.wf = true → m'.wf = true → (∀ a : Nat, a < 256 → m.get a = m'.get a) → m = m'

/-! ## Invariant -/

/-- The machine after construction is legal, for every opcode table that gives different rows different bytes, and the one
of the default configuration does. -/
def Obligations.ResetIsLegal : Prop :=
  Inv State.reset ∧ ∀ c : Config, c.wf → Inv (State.construct c)

/-- Every step keeps a legal state legal: the memory's form, `0 <= pc <= 256`, FL's legal values, the opcode table and the
agreement of the status with PC (10_state.md; 40_cycle.md, range of PC). -/
def Obligations.StepKeepsTheInvariant : Prop := ∀ s t : State, Inv s → step s = .next t → Inv t

/-- Every host operation keeps a legal state legal (70_reset_and_hazards.md, load, run and step). -/
def Obligations.HostOperationsKeepTheInvariant : Prop :=
  ∀ s : State, Inv s → (∀ n, Inv (hostRun n s)) ∧ Inv (hostStep s) ∧ ∀ img t, load img s = .loaded t → Inv t

/-! ## Encoding -/

/-- Decoding an encoded instruction gives it back with every operand byte, whatever follows, in every configuration that
has the instruction (30_encoding.md, formats and opcode map). -/
def Obligations.DecodeOfEncode : Prop :=
  ∀ (c : Config) (i : Instr) (rest : List Byte), c.wf → c.has i.mnemonic = true →
    decode c (encode c i ++ rest) = .ok (i, rest)

/-- Bytes that decode are the encoding of the decoded instruction, which the configuration has (30_encoding.md, formats and
opcode map). -/
def Obligations.EncodeOfDecode : Prop :=
  ∀ (c : Config) (i : Instr) (bytes rest : List Byte), decode c bytes = .ok (i, rest) →
    bytes = encode c i ++ rest ∧ c.has i.mnemonic = true

/-- Words written out from the opcode map decode to the instructions they stand for (30_encoding.md, opcode map; opcode
values other than HLT's are the spec's decision D1). -/
def Obligations.SampleWordsDecode : Prop :=
  decode Config.default [0b00000001] = .ok (.hlt, []) ∧
  decode Config.default [0b10000010, 0x02, 0x2A] = .ok (.ldi 2 0x2A, []) ∧
  decode Config.default [0b10100000, 0x00, 0x01] = .ok (.add 0 1, []) ∧
  decode Config.default [0b01000101, 0x07] = .ok (.push 7, []) ∧
  decode Config.default [0b01010101, 0x03] = .ok (.jeq 3, []) ∧
  decode Config.default [0b10100001, 0x00, 0x01] = .error (.unknownOpcode 0xA1) ∧
  decode Config.extended [0b10100001, 0x00, 0x01] = .ok (.sub 0 1, []) ∧
  decode Config.default [0x00] = .error (.unknownOpcode 0x00)

/-- The dispatch table holds exactly the opcode map's entries: 16 with `EXT_ALU = false`, 20 with `EXT_ALU = true`; every
other byte is illegal, `0x00` among them (30_encoding.md, dispatch table, opcode map, illegal encodings; opcode values other
than HLT's are the spec's decision D1, the four of `EXT_ALU` D2). -/
def Obligations.DispatchTableIsTheOpcodeMap : Prop :=
  ∀ (op : Byte) (m : Mnemonic),
    (dispatch Config.default op = some m ↔ (op, m) ∈ ([(0x01, .HLT), (0x82, .LDI), (0x47, .PRN), (0xA0, .ADD), (0xA2, .MUL),
      (0xA8, .AND), (0xAA, .OR), (0xAB, .XOR), (0x45, .PUSH), (0x46, .POP), (0x50, .CALL), (0x11, .RET), (0xA7, .CMP),
      (0x54, .JMP), (0x55, .JEQ), (0x56, .JNE)] : List (Byte × Mnemonic))) ∧
    (dispatch Config.extended op = some m ↔ (op, m) ∈ ([(0x01, .HLT), (0x82, .LDI), (0x47, .PRN), (0xA0, .ADD), (0xA2, .MUL),
      (0xA8, .AND), (0xAA, .OR), (0xAB, .XOR), (0x45, .PUSH), (0x46, .POP), (0x50, .CALL), (0x11, .RET), (0xA7, .CMP),
      (0x54, .JMP), (0x55, .JEQ), (0x56, .JNE), (0xA1, .SUB), (0xA3, .DIV), (0xA4, .MOD), (0x69, .NOT)] :
      List (Byte × Mnemonic)))

/-- The step after placing an opcode-table word runs the instruction the decoder reads from it: the word stands for a
program loaded and started from outside (70_reset_and_hazards.md, boot requirements; the placing is the model's, log 5). -/
def Obligations.PlacedWordIsRun : Prop :=
  ∀ (s : State) (nbits w : Nat) (i : Instr), s.mem.wf = true → s.cfg.opcodes = defaultOpcodes →
    decodeTableWord nbits w = some i →
    step (s.withFetchWord nbits w) = latchIr (BitVec.ofNat 8 (w % 2 ^ nbits)) (exec i (s.withFetchWord nbits w))

/-! ## Host operations -/

/-- `load` writes the image's bytes from address 0 on, leaves the rest of memory, "and does not otherwise reset state":
registers, PC, FL, IR, status and the output log are unchanged (70_reset_and_hazards.md R132). -/
def Obligations.LoadWritesThePrefix : Prop :=
  ∀ (s : State) (bs : List Byte), s.mem.wf = true → (s.status = .idle ∨ ∃ h, s.status = .halted h) → bs.length ≤ 256 →
    ∃ t, load (.ofBytes bs) s = .loaded t ∧ (∀ (i : Nat) (hi : i < bs.length), t.byte i = bs[i]) ∧
      (∀ j, bs.length ≤ j → t.byte j = s.byte j) ∧ t = { s with mem := t.mem }

/-- `load` fails with LoadError of the first element that is no byte, with OutOfBounds(256) for more than 256 bytes, and is
refused with the recorded error on a faulted machine (70_reset_and_hazards.md, load; the spec's decision D19; which
position is named among several is the model's choice, log 23). -/
def Obligations.LoadChecksBeforeItWrites : Prop :=
  ∀ (s : State) (ts : List Token),
    (∀ e, s.status = .faulted e → load (.tokens ts) s = .refused e ∧ load .unreadable s = .refused e) ∧
    (s.status = .idle ∨ (∃ h, s.status = .halted h) →
      (∃ p, load .unreadable s = .failed (.loadError p)) ∧
      (∀ (pre post : List Token) (x : Token), ts = pre ++ x :: post → (∀ y ∈ pre, y.byte?.isSome = true) →
        x.byte? = none → load (.tokens ts) s = .failed (.loadError (some pre.length))) ∧
      ((∀ y ∈ ts, y.byte?.isSome = true) → 256 < ts.length → load (.tokens ts) s = .failed (.outOfBounds 256)))

/-- "A new `run()` starts at address 0 with the registers, FL, memory and output log exactly as the previous run left them":
after a HLT, `run` is the loop from the state the HLT left, with PC at 0 and only the status changed
(70_reset_and_hazards.md R136). -/
def Obligations.RunAgainStartsFromTheTop : Prop :=
  ∀ (s t : State) (h : Nat), step s = .next t → t.status = .halted h →
    t.pc = 0 ∧ ∀ n, hostRun n t = runLoop n { t with status := .running }

/-- A console line is the decimal digits of the byte, at least one, with no leading zeros, then a line feed; lines stand in
the order of the log, and an empty log has no text (41_halt_load_print.md, output channel; the line feed and the digits'
form are the spec's decision D13, log 20). -/
def Obligations.ConsoleLinesAreDecimal : Prop :=
  (∀ v : Byte, (decimalDigits v).foldl (fun n d => 10 * n + d) 0 = v.toNat ∧ (∀ d ∈ decimalDigits v, d < 10) ∧
    decimalDigits v ≠ [] ∧ ((decimalDigits v).head? = some 0 → decimalDigits v = [0])) ∧
  consoleText [] = [] ∧
  ∀ (o : List Byte) (v : Byte), consoleText (o ++ [v]) = consoleText o ++ ((decimalDigits v).map Nat.digitChar ++ ['\n'])

/-- What the host's `step` and `run` execute on a machine that is not faulted: both set the status Running; `step` is then
the one step, and `run` the loop, which goes on from the state each step of a Running machine answers and ends in any other
status (40_cycle.md, run loop; 70_reset_and_hazards.md, run and step, the spec's decision D12, log 19). The bound on the
number of steps is the model's (log 28). -/
def Obligations.HostRunAndStepExecuteSteps : Prop :=
  ∀ s : State,
    (s.status.isFaulted = false →
      (∃ t, step { s with status := .running } = .next t ∧ hostStep s = t) ∧
      ∀ n, hostRun n s = runLoop n { s with status := .running }) ∧
    runLoop 0 s = s ∧
    (s.status = .running → ∃ t, step s = .next t ∧ ∀ n, runLoop (n + 1) s = runLoop n t) ∧
    (s.status ≠ .running → ∀ n, runLoop n s = s)
end

