-- ==== Sys2Proof/Laws/Memory.lean ====
section
/-! SUPPORT. Memory: read after write, and that every operation keeps the canonical form. -/

namespace Sys2Proof.Machine

/-- A higher bound on the first address is a stronger demand. -/
theorem cellsOk_mono {lo hi : Nat} (h : lo ≤ hi) {l : List Host.Cell} (hl : cellsOk hi l = true) : cellsOk lo l = true := by
  cases l with
  | nil => rfl
  | cons c r =>
    simp only [cellsOk, Bool.and_eq_true, decide_eq_true_eq] at hl ⊢
    exact ⟨⟨⟨by omega, hl.1.1.2⟩, hl.1.2⟩, hl.2⟩

/-- An address below the first listed one reads as blank. -/
theorem cellsGet_below {lo : Nat} {l : List Host.Cell} (hl : cellsOk lo l = true) {a : Nat} (ha : a < lo) :
    cellsGet l a = blankByte := by
  induction l generalizing lo with
  | nil => rfl
  | cons c r ih =>
    simp only [cellsOk, Bool.and_eq_true, decide_eq_true_eq] at hl
    have hne : a ≠ c.1 := by omega
    simp only [cellsGet, hne, if_false]
    exact ih hl.2 (by omega)

/-- Reading another address after a write: it is untouched, in any list. -/
theorem cellsGet_cellsSet_ne (l : List Host.Cell) {a b : Nat} (v : Byte) (h : b ≠ a) :
    cellsGet (cellsSet l a v) b = cellsGet l b := by
  induction l with
  | nil => by_cases hv : v = blankByte <;> simp [cellsSet, cellsGet, hv, h]
  | cons c r ih =>
    simp only [cellsSet]
    split
    · split <;> simp [cellsGet, h]
    · split
      · rename_i hac
        split <;> simp [cellsGet, ← hac, h]
      · simp [cellsGet, ih]

/-- Reading the written address after a write, in a list in canonical form. -/
theorem cellsGet_cellsSet_same {lo : Nat} {l : List Host.Cell} (hl : cellsOk lo l = true) (a : Nat) (v : Byte) :
    cellsGet (cellsSet l a v) a = v := by
  induction l generalizing lo with
  | nil => by_cases hv : v = blankByte <;> simp [cellsSet, cellsGet, hv]
  | cons c r ih =>
    have hl' := hl
    simp only [cellsOk, Bool.and_eq_true, decide_eq_true_eq] at hl
    simp only [cellsSet]
    split
    · rename_i hlt
      split
      · rename_i hv
        have hne : a ≠ c.1 := by omega
        simp only [cellsGet, hne, if_false, hv]
        exact cellsGet_below hl.2 (by omega)
      · simp [cellsGet]
    · split
      · rename_i hac
        split
        · rename_i hv
          rw [hv]
          exact cellsGet_below hl.2 (by omega)
        · simp [cellsGet]
      · rename_i hac
        simp only [cellsGet, hac, if_false]
        exact ih hl.2

/-- A write inside the memory keeps the canonical form. -/
theorem cellsOk_cellsSet {lo : Nat} {l : List Host.Cell} (hl : cellsOk lo l = true) {a : Nat} (v : Byte)
    (hlo : lo ≤ a) (ha : a < memSize) : cellsOk lo (cellsSet l a v) = true := by
  induction l generalizing lo with
  | nil => by_cases hv : v = blankByte <;> simp [cellsSet, cellsOk, hv, hlo, ha]
  | cons c r ih =>
    have hl' := hl
    simp only [cellsOk, Bool.and_eq_true, decide_eq_true_eq, bne_iff_ne] at hl
    simp only [cellsSet]
    split
    · split
      · exact hl'
      · simp only [cellsOk, Bool.and_eq_true, decide_eq_true_eq, bne_iff_ne]
        exact ⟨⟨⟨hlo, ha⟩, ‹_›⟩, ⟨⟨by omega, hl.1.1.2⟩, hl.1.2⟩, hl.2⟩
    · split
      · split
        · exact cellsOk_mono (by omega) hl.2
        · simp only [cellsOk, Bool.and_eq_true, decide_eq_true_eq, bne_iff_ne]
          exact ⟨⟨⟨hlo, ha⟩, ‹_›⟩, by rename_i hac _; subst hac; exact hl.2⟩
      · simp only [cellsOk, Bool.and_eq_true, decide_eq_true_eq, bne_iff_ne]
        exact ⟨hl.1, ih hl.2 (by omega)⟩

namespace Memory

variable (m : Memory)

@[simp] theorem empty_wf : Memory.empty.wf = true := rfl

@[simp] theorem empty_get (a : Nat) : Memory.empty.get a = blankByte := rfl

/-- A write leaves every other address alone. -/
theorem get_set_ne {a b : Nat} (v : Byte) (h : b ≠ a) : (m.set a v).get b = m.get b :=
  cellsGet_cellsSet_ne m.cells v h

/-- A read after a write of the same address gives the value written. -/
theorem get_set_same {m : Memory} (h : m.wf = true) (a : Nat) (v : Byte) : (m.set a v).get a = v :=
  cellsGet_cellsSet_same h a v

/-- A read after a write. -/
theorem get_set {m : Memory} (h : m.wf = true) (a b : Nat) (v : Byte) :
    (m.set a v).get b = if b = a then v else m.get b := by
  split
  · rename_i hb; rw [hb]; exact get_set_same h a v
  · exact get_set_ne m v ‹_›

/-- A write inside the memory keeps the canonical form. -/
theorem set_wf {m : Memory} (h : m.wf = true) {a : Nat} (v : Byte) (ha : a < memSize) : (m.set a v).wf = true :=
  cellsOk_cellsSet h v (Nat.zero_le a) ha

/-- An image that fits keeps the canonical form. -/
theorem setAll_wf {m : Memory} (h : m.wf = true) {a : Nat} {vs : List Byte} (ha : a + vs.length ≤ memSize) :
    (m.setAll a vs).wf = true := by
  induction vs generalizing m a with
  | nil => exact h
  | cons v r ih =>
    simp only [List.length_cons] at ha
    exact ih (set_wf h v (by omega)) (by omega)

/-- An image leaves every address outside it alone. -/
theorem setAll_get_outside (a : Nat) (vs : List Byte) {b : Nat} (h : b < a ∨ a + vs.length ≤ b) :
    (m.setAll a vs).get b = m.get b := by
  induction vs generalizing m a with
  | nil => rfl
  | cons v r ih =>
    simp only [List.length_cons] at h
    rw [Memory.setAll, ih _ (a + 1) (by omega), get_set_ne m v (by omega)]

/-- An image's byte number `i` stands at address `a + i`. -/
theorem setAll_get_inside {m : Memory} (h : m.wf = true) {a : Nat} {vs : List Byte} (ha : a + vs.length ≤ memSize)
    {i : Nat} (hi : i < vs.length) : (m.setAll a vs).get (a + i) = vs[i] := by
  induction vs generalizing m a i with
  | nil => simp at hi
  | cons v r ih =>
    simp only [List.length_cons] at ha hi
    cases i with
    | zero => rw [Memory.setAll, setAll_get_outside _ _ _ (by omega)]; simpa using get_set_same h a v
    | succ j =>
      have := ih (set_wf h v (a := a) (by omega)) (a := a + 1) (by omega) (i := j) (by omega)
      simpa [Memory.setAll, Nat.add_assoc, Nat.add_comm 1 j] using this

end Memory

end Sys2Proof.Machine
end

