-- ==== Sys2Proof/Laws/State.lean ====
section
/-! SUPPORT. One lemma per field per update of the state, and the register file's read-after-write laws. -/

namespace Sys2Proof.Machine

variable (s : State)

@[simp] theorem State.setReg_cfg (r : Fin 8) (v : Byte) : (s.setReg r v).cfg = s.cfg := rfl
@[simp] theorem State.setReg_regs (r : Fin 8) (v : Byte) : (s.setReg r v).regs = s.regs.set r.val v := rfl
@[simp] theorem State.setReg_pc (r : Fin 8) (v : Byte) : (s.setReg r v).pc = s.pc := rfl
@[simp] theorem State.setReg_fl (r : Fin 8) (v : Byte) : (s.setReg r v).fl = s.fl := rfl
@[simp] theorem State.setReg_ir (r : Fin 8) (v : Byte) : (s.setReg r v).ir = s.ir := rfl
@[simp] theorem State.setReg_status (r : Fin 8) (v : Byte) : (s.setReg r v).status = s.status := rfl
@[simp] theorem State.setReg_mem (r : Fin 8) (v : Byte) : (s.setReg r v).mem = s.mem := rfl
@[simp] theorem State.setReg_out (r : Fin 8) (v : Byte) : (s.setReg r v).out = s.out := rfl

@[simp] theorem State.setPc_cfg (n : Nat) : (s.setPc n).cfg = s.cfg := rfl
@[simp] theorem State.setPc_regs (n : Nat) : (s.setPc n).regs = s.regs := rfl
@[simp] theorem State.setPc_pc (n : Nat) : (s.setPc n).pc = n := rfl
@[simp] theorem State.setPc_fl (n : Nat) : (s.setPc n).fl = s.fl := rfl
@[simp] theorem State.setPc_ir (n : Nat) : (s.setPc n).ir = s.ir := rfl
@[simp] theorem State.setPc_status (n : Nat) : (s.setPc n).status = s.status := rfl
@[simp] theorem State.setPc_mem (n : Nat) : (s.setPc n).mem = s.mem := rfl
@[simp] theorem State.setPc_out (n : Nat) : (s.setPc n).out = s.out := rfl

@[simp] theorem State.setFl_cfg (v : Byte) : (s.setFl v).cfg = s.cfg := rfl
@[simp] theorem State.setFl_regs (v : Byte) : (s.setFl v).regs = s.regs := rfl
@[simp] theorem State.setFl_pc (v : Byte) : (s.setFl v).pc = s.pc := rfl
@[simp] theorem State.setFl_fl (v : Byte) : (s.setFl v).fl = v := rfl
@[simp] theorem State.setFl_ir (v : Byte) : (s.setFl v).ir = s.ir := rfl
@[simp] theorem State.setFl_status (v : Byte) : (s.setFl v).status = s.status := rfl
@[simp] theorem State.setFl_mem (v : Byte) : (s.setFl v).mem = s.mem := rfl
@[simp] theorem State.setFl_out (v : Byte) : (s.setFl v).out = s.out := rfl

@[simp] theorem State.emit_cfg (v : Byte) : (s.emit v).cfg = s.cfg := rfl
@[simp] theorem State.emit_regs (v : Byte) : (s.emit v).regs = s.regs := rfl
@[simp] theorem State.emit_pc (v : Byte) : (s.emit v).pc = s.pc := rfl
@[simp] theorem State.emit_fl (v : Byte) : (s.emit v).fl = s.fl := rfl
@[simp] theorem State.emit_ir (v : Byte) : (s.emit v).ir = s.ir := rfl
@[simp] theorem State.emit_status (v : Byte) : (s.emit v).status = s.status := rfl
@[simp] theorem State.emit_mem (v : Byte) : (s.emit v).mem = s.mem := rfl
@[simp] theorem State.emit_out (v : Byte) : (s.emit v).out = s.out ++ [v] := rfl

@[simp] theorem State.setStatus_cfg (v : Status) : (s.setStatus v).cfg = s.cfg := rfl
@[simp] theorem State.setStatus_regs (v : Status) : (s.setStatus v).regs = s.regs := rfl
@[simp] theorem State.setStatus_pc (v : Status) : (s.setStatus v).pc = s.pc := rfl
@[simp] theorem State.setStatus_fl (v : Status) : (s.setStatus v).fl = s.fl := rfl
@[simp] theorem State.setStatus_ir (v : Status) : (s.setStatus v).ir = s.ir := rfl
@[simp] theorem State.setStatus_status (v : Status) : (s.setStatus v).status = v := rfl
@[simp] theorem State.setStatus_mem (v : Status) : (s.setStatus v).mem = s.mem := rfl
@[simp] theorem State.setStatus_out (v : Status) : (s.setStatus v).out = s.out := rfl

@[simp] theorem State.setByte_cfg (a : Nat) (v : Byte) : (s.setByte a v).cfg = s.cfg := rfl
@[simp] theorem State.setByte_regs (a : Nat) (v : Byte) : (s.setByte a v).regs = s.regs := rfl
@[simp] theorem State.setByte_pc (a : Nat) (v : Byte) : (s.setByte a v).pc = s.pc := rfl
@[simp] theorem State.setByte_fl (a : Nat) (v : Byte) : (s.setByte a v).fl = s.fl := rfl
@[simp] theorem State.setByte_ir (a : Nat) (v : Byte) : (s.setByte a v).ir = s.ir := rfl
@[simp] theorem State.setByte_status (a : Nat) (v : Byte) : (s.setByte a v).status = s.status := rfl
@[simp] theorem State.setByte_mem (a : Nat) (v : Byte) : (s.setByte a v).mem = s.mem.set a v := rfl
@[simp] theorem State.setByte_out (a : Nat) (v : Byte) : (s.setByte a v).out = s.out := rfl

@[simp] theorem State.setIr_cfg (v : Byte) : (s.setIr v).cfg = s.cfg := rfl
@[simp] theorem State.setIr_regs (v : Byte) : (s.setIr v).regs = s.regs := rfl
@[simp] theorem State.setIr_pc (v : Byte) : (s.setIr v).pc = s.pc := rfl
@[simp] theorem State.setIr_fl (v : Byte) : (s.setIr v).fl = s.fl := rfl
@[simp] theorem State.setIr_ir (v : Byte) : (s.setIr v).ir = some v := rfl
@[simp] theorem State.setIr_status (v : Byte) : (s.setIr v).status = s.status := rfl
@[simp] theorem State.setIr_mem (v : Byte) : (s.setIr v).mem = s.mem := rfl
@[simp] theorem State.setIr_out (v : Byte) : (s.setIr v).out = s.out := rfl

@[simp] theorem State.setRunning_cfg : s.setRunning.cfg = s.cfg := rfl
@[simp] theorem State.setRunning_regs : s.setRunning.regs = s.regs := rfl
@[simp] theorem State.setRunning_pc : s.setRunning.pc = s.pc := rfl
@[simp] theorem State.setRunning_fl : s.setRunning.fl = s.fl := rfl
@[simp] theorem State.setRunning_ir : s.setRunning.ir = s.ir := rfl
@[simp] theorem State.setRunning_status : s.setRunning.status = .running := rfl
@[simp] theorem State.setRunning_mem : s.setRunning.mem = s.mem := rfl
@[simp] theorem State.setRunning_out : s.setRunning.out = s.out := rfl

/-! Reads through the accessors. -/

@[simp] theorem State.setReg_byte (r : Fin 8) (v : Byte) (b : Nat) : (s.setReg r v).byte b = s.byte b := rfl
@[simp] theorem State.setReg_flagEqual (r : Fin 8) (v : Byte) : (s.setReg r v).flagEqual = s.flagEqual := rfl
@[simp] theorem State.setPc_reg (n : Nat) (q : Fin 8) : (s.setPc n).reg q = s.reg q := rfl
@[simp] theorem State.setPc_sp (n : Nat) : (s.setPc n).sp = s.sp := rfl
@[simp] theorem State.setPc_byte (n : Nat) (b : Nat) : (s.setPc n).byte b = s.byte b := rfl
@[simp] theorem State.setPc_flagEqual (n : Nat) : (s.setPc n).flagEqual = s.flagEqual := rfl
@[simp] theorem State.setFl_reg (v : Byte) (q : Fin 8) : (s.setFl v).reg q = s.reg q := rfl
@[simp] theorem State.setFl_sp (v : Byte) : (s.setFl v).sp = s.sp := rfl
@[simp] theorem State.setFl_byte (v : Byte) (b : Nat) : (s.setFl v).byte b = s.byte b := rfl
@[simp] theorem State.emit_reg (v : Byte) (q : Fin 8) : (s.emit v).reg q = s.reg q := rfl
@[simp] theorem State.emit_sp (v : Byte) : (s.emit v).sp = s.sp := rfl
@[simp] theorem State.emit_byte (v : Byte) (b : Nat) : (s.emit v).byte b = s.byte b := rfl
@[simp] theorem State.emit_flagEqual (v : Byte) : (s.emit v).flagEqual = s.flagEqual := rfl
@[simp] theorem State.setStatus_reg (v : Status) (q : Fin 8) : (s.setStatus v).reg q = s.reg q := rfl
@[simp] theorem State.setStatus_sp (v : Status) : (s.setStatus v).sp = s.sp := rfl
@[simp] theorem State.setStatus_byte (v : Status) (b : Nat) : (s.setStatus v).byte b = s.byte b := rfl
@[simp] theorem State.setStatus_flagEqual (v : Status) : (s.setStatus v).flagEqual = s.flagEqual := rfl
@[simp] theorem State.setByte_reg (a : Nat) (v : Byte) (q : Fin 8) : (s.setByte a v).reg q = s.reg q := rfl
@[simp] theorem State.setByte_sp (a : Nat) (v : Byte) : (s.setByte a v).sp = s.sp := rfl
@[simp] theorem State.setByte_flagEqual (a : Nat) (v : Byte) : (s.setByte a v).flagEqual = s.flagEqual := rfl
@[simp] theorem State.setIr_reg (v : Byte) (q : Fin 8) : (s.setIr v).reg q = s.reg q := rfl
@[simp] theorem State.setIr_sp (v : Byte) : (s.setIr v).sp = s.sp := rfl
@[simp] theorem State.setIr_byte (v : Byte) (b : Nat) : (s.setIr v).byte b = s.byte b := rfl
@[simp] theorem State.setIr_flagEqual (v : Byte) : (s.setIr v).flagEqual = s.flagEqual := rfl
@[simp] theorem State.setRunning_reg (q : Fin 8) : s.setRunning.reg q = s.reg q := rfl
@[simp] theorem State.setRunning_sp : s.setRunning.sp = s.sp := rfl
@[simp] theorem State.setRunning_byte (b : Nat) : s.setRunning.byte b = s.byte b := rfl
@[simp] theorem State.setRunning_flagEqual : s.setRunning.flagEqual = s.flagEqual := rfl

/-- A register read after a register write. -/
theorem State.setReg_reg (r q : Fin 8) (v : Byte) : (s.setReg r v).reg q = if r = q then v else s.reg q := by
  simp [State.setReg, State.reg, Vector.getElem_set, Fin.ext_iff]

@[simp] theorem State.setReg_reg_same (r : Fin 8) (v : Byte) : (s.setReg r v).reg r = v := by
  simp [State.setReg_reg]

theorem State.setReg_reg_of_ne {r q : Fin 8} (v : Byte) (h : r ≠ q) : (s.setReg r v).reg q = s.reg q := by
  simp [State.setReg_reg, h]

@[simp] theorem State.setReg_sp_sp (v : Byte) : (s.setReg spIndex v).sp = v := by
  simp [State.sp]

theorem State.setReg_sp_of_ne {r : Fin 8} (v : Byte) (h : r ≠ spIndex) : (s.setReg r v).sp = s.sp := by
  simp [State.sp, State.setReg_reg, h]

/-- Writing a register twice leaves the later value. -/
@[simp] theorem State.setReg_setReg_same (r : Fin 8) (v w : Byte) : (s.setReg r v).setReg r w = s.setReg r w := by
  simp [State.setReg]

/-- Two states with equal registers, read one by one, have equal register files. -/
theorem State.regs_ext {s t : State} (h : ∀ r, s.reg r = t.reg r) : s.regs = t.regs := by
  apply Vector.ext
  intro i hi
  exact h ⟨i, hi⟩

end Sys2Proof.Machine
end

