-- ==== Sys2Proof/Laws/Ops.lean ====
section
/-! SUPPORT. One lemma per shared operation: everything it can do. -/

namespace Sys2Proof.Machine

/-! Sequencing of operations that can raise an error. -/

@[simp] theorem ok_bind {α β : Type} (a : α) (f : α → Except ErrorKind β) : (Except.ok a >>= f) = f a := rfl

@[simp] theorem error_bind {α β : Type} (e : ErrorKind) (f : α → Except ErrorKind β) :
    ((Except.error e : Except ErrorKind α) >>= f) = .error e := rfl

/-- A sequence that completes has a first part that completes. -/
theorem bind_eq_ok {α β : Type} {x : Except ErrorKind α} {f : α → Except ErrorKind β} {b : β} :
    (x >>= f) = .ok b ↔ ∃ a, x = .ok a ∧ f a = .ok b := by
  cases x <;> simp

@[simp] theorem commit_ok (s t : State) : commit s (.ok t) = .next t := rfl

@[simp] theorem commit_error (s : State) (k : ErrorKind) : commit s (.error k) = raise k s := rfl

/-- What `commit` answers: the handler's state, or the error taken in the state before it. -/
theorem commit_cases {s t : State} {x : Except ErrorKind State} (h : commit s x = .next t) :
    x = .ok t ∨ ∃ k, x = .error k ∧ t = s.setStatus (.faulted { kind := k, pc := some s.pc }) := by
  cases x with
  | ok u => exact .inl (by simpa using h)
  | error k => exact .inr ⟨k, rfl, by simpa [raise] using h.symm⟩

/-- `commit` always answers a next state. -/
theorem commit_next (s : State) (x : Except ErrorKind State) : ∃ t, commit s x = .next t := by
  cases x <;> simp [raise]

/-! Register bytes. -/

@[simp] theorem regByte_toNat (r : Fin 8) : (regByte r).toNat = r.val := by
  revert r; decide

theorem checkReg_of_lt {b : Byte} (h : b.toNat < 8) : checkReg b = .ok ⟨b.toNat, h⟩ := by
  simp [checkReg, h]

theorem checkReg_of_ge {b : Byte} (h : 8 ≤ b.toNat) : checkReg b = .error (.invalidRegister b) := by
  simp [checkReg, Nat.not_lt.mpr h]

@[simp] theorem checkReg_regByte (r : Fin 8) : checkReg (regByte r) = .ok r := by
  revert r; decide

/-- What the register-index checker answers. -/
theorem checkReg_eq_ok {b : Byte} {r : Fin 8} : checkReg b = .ok r ↔ b = regByte r := by
  constructor
  · intro h
    simp only [checkReg] at h
    split at h
    · cases h; exact BitVec.eq_of_toNat_eq (by simp)
    · cases h
  · rintro rfl; exact checkReg_regByte r

/-- The register-index checker raises nothing but InvalidRegister of its byte. -/
theorem checkReg_eq_error {b : Byte} {k : ErrorKind} (h : checkReg b = .error k) : 8 ≤ b.toNat ∧ k = .invalidRegister b := by
  simp only [checkReg] at h
  split at h
  · cases h
  · cases h; exact ⟨by omega, rfl⟩

/-! Checked accesses. -/

theorem checkAddr_of_mem {a : Int} (h : 0 ≤ a ∧ a < 256) : checkAddr a = .ok a.toNat := if_pos h

theorem checkAddr_of_not_mem {a : Int} (h : ¬(0 ≤ a ∧ a < 256)) : checkAddr a = .error (.outOfBounds a) := if_neg h

/-- A read at a natural address. -/
theorem memRead_nat (n : Nat) (s : State) :
    memRead n s = if n < 256 then .ok (s.byte n) else .error (.outOfBounds n) := by
  simp only [memRead, checkAddr]
  by_cases h : n < 256
  · rw [if_pos ⟨by omega, by omega⟩, if_pos h]; rfl
  · rw [if_neg (by omega), if_neg h]

@[simp] theorem memRead_byte (v : Byte) (s : State) : memRead (v.toNat : Nat) s = .ok (s.byte v.toNat) := by
  rw [memRead_nat, if_pos v.isLt]

@[simp] theorem memWrite_byte (a v : Byte) (s : State) : memWrite (a.toNat : Nat) v s = .ok (s.setByte a.toNat v) := by
  have : (0 : Int) ≤ a.toNat ∧ (a.toNat : Int) < 256 := ⟨by omega, by have := a.isLt; omega⟩
  simp [memWrite, checkAddr_of_mem this]

/-- What the stack-pointer update answers (43_stack.md R100). -/
theorem spSet_cases (v : Int) (s : State) :
    (0 ≤ v ∧ v < 256 ∧ spSet v s = .ok (s.setReg spIndex (narrowInt v))) ∨
    ((v < 0 ∨ 256 ≤ v) ∧ spSet v s = .error (.outOfBounds v)) := by
  by_cases h : v < 0 ∨ 256 ≤ v
  · exact .inr ⟨h, if_pos h⟩
  · exact .inl ⟨by omega, by omega, if_neg h⟩

theorem narrowInt_toNat {v : Int} (h0 : 0 ≤ v) (h1 : v < 256) : (narrowInt v).toNat = v.toNat := by
  simp only [narrowInt, BitVec.toNat_ofInt]
  omega

@[simp] theorem narrow_toNat (n : Nat) : (narrow n).toNat = n % 256 := by
  simp [narrow]

/-- The value SP has after a push, where it is a byte. -/
theorem narrowInt_spBelow (s : State) (h : s.sp.toNat ≠ 0) : narrowInt s.spBelow = s.sp - 1 := by
  have hlt := s.sp.isLt
  apply BitVec.eq_of_toNat_eq
  rw [narrowInt_toNat (by simp only [State.spBelow]; omega) (by simp only [State.spBelow]; omega)]
  rw [BitVec.toNat_sub, show BitVec.toNat (1 : Byte) = 1 from rfl]
  simp only [State.spBelow]
  omega

/-- The value SP has after a pop, where it is a byte. -/
theorem narrowInt_spAbove (s : State) (h : s.sp.toNat ≠ 255) : narrowInt s.spAbove = s.sp + 1 := by
  have hlt := s.sp.isLt
  apply BitVec.eq_of_toNat_eq
  rw [narrowInt_toNat (by simp only [State.spAbove]; omega) (by simp only [State.spAbove]; omega)]
  rw [BitVec.toNat_add, show BitVec.toNat (1 : Byte) = 1 from rfl]
  simp only [State.spAbove]
  omega

/-- The SP decrement of PUSH and CALL. -/
theorem spSet_spBelow (s : State) :
    spSet s.spBelow s = if s.sp.toNat = 0 then .error (.outOfBounds (-1)) else .ok (s.setReg spIndex (s.sp - 1)) := by
  by_cases h : s.sp.toNat = 0
  · rw [if_pos h, State.spBelow, h]; rfl
  · have hlt := s.sp.isLt
    rw [if_neg h, spSet, if_neg (by simp only [State.spBelow]; omega), narrowInt_spBelow s h]

/-- The SP increment of POP and RET. -/
theorem spSet_spAbove (s : State) :
    spSet s.spAbove s = if s.sp.toNat = 255 then .error (.outOfBounds 256) else .ok (s.setReg spIndex (s.sp + 1)) := by
  by_cases h : s.sp.toNat = 255
  · rw [if_pos h, State.spAbove, h]; rfl
  · have hlt := s.sp.isLt
    rw [if_neg h, spSet, if_neg (by simp only [State.spAbove]; omega), narrowInt_spAbove s h]

/-! Flags. -/

theorem compareFlags_legal (a b : Byte) : flagsLegal (compareFlags a b) = true := by
  unfold compareFlags; split
  · rfl
  · split <;> rfl

end Sys2Proof.Machine
end

