-- ==== Sys2Proof/Laws/Alu.lean ====
section
/-! SUPPORT. What the ALU answers, operation by operation, and the common form of the two-register instructions. -/

namespace Sys2Proof.Machine

@[simp] theorem alu_add (c : Config) (a b : Byte) : alu c .add a b = .ok (narrow (a.toNat + b.toNat)) := rfl
@[simp] theorem alu_mul (c : Config) (a b : Byte) : alu c .mul a b = .ok (narrow (a.toNat * b.toNat)) := rfl
@[simp] theorem alu_and (c : Config) (a b : Byte) : alu c .and a b = .ok (a &&& b) := rfl
@[simp] theorem alu_or (c : Config) (a b : Byte) : alu c .or a b = .ok (a ||| b) := rfl
@[simp] theorem alu_xor (c : Config) (a b : Byte) : alu c .xor a b = .ok (a ^^^ b) := rfl
@[simp] theorem alu_cmp (c : Config) (a b : Byte) : alu c .cmp a b = .ok (compareFlags a b) := rfl

/-- The operations of `EXT_ALU` answer their result where the configuration has them. -/
theorem alu_of_ext {c : Config} (h : c.extAlu = true) (op : AluOp) (a b : Byte) : alu c op a b = aluResult op a b := by
  cases op <;> simp [alu, aluSupports, h]

/-- An operation the configuration lacks. -/
theorem alu_unsupported {c : Config} {op : AluOp} (h : aluSupports c op = false) (a b : Byte) :
    alu c op a b = .error (.unsupportedAluOperation op) := by
  simp [alu, h]

/-- What a two-register instruction that completes does. -/
theorem aluTwoRegisters_eq_ok {op : AluOp} {ra rb : Byte} {s t : State} (h : aluTwoRegisters op ra rb s = .ok t) :
    ∃ a b v, ra = regByte a ∧ rb = regByte b ∧ alu s.cfg op (s.reg a) (s.reg b) = .ok v ∧
      t = (s.setReg a v).setPc (s.pc + 3) := by
  simp only [aluTwoRegisters, bind_eq_ok] at h
  obtain ⟨a, ha, b, hb, v, hv, ht⟩ := h
  exact ⟨a, b, v, checkReg_eq_ok.mp ha, checkReg_eq_ok.mp hb, hv, (Except.ok.inj ht).symm⟩

end Sys2Proof.Machine
end

