-- ==== Sys2Proof/Laws/Exec.lean ====
section
/-! SUPPORT. What each handler can do: it raised an error, taken in the state before it, or it had the effect of its rule. -/

namespace Sys2Proof.Machine

/-- `t` is `s` with an error of the instruction at `s.pc` taken: nothing but the status differs (60_exceptions.md R118). -/
def Raised (s t : State) : Prop := ∃ k, t = s.setStatus (.faulted { kind := k, pc := some s.pc })

theorem raise_eq (k : ErrorKind) (s : State) :
    raise k s = .next (s.setStatus (.faulted { kind := k, pc := some s.pc })) := rfl

/-- Every handler is a committed computation, so it answers a next state: `Raised`, or what the computation gives. -/
theorem commit_inv {s t : State} {x : Except ErrorKind State} (h : commit s x = .next t) : Raised s t ∨ x = .ok t := by
  rcases commit_cases h with h | ⟨k, -, h⟩
  · exact .inr h
  · exact .inl ⟨k, h⟩

/-- An operand byte names a register or is illegal. -/
theorem regByte_or_invalid (b : Byte) : (∃ r, b = regByte r) ∨ 8 ≤ b.toNat := by
  by_cases h : b.toNat < 8
  · exact .inl ⟨_, checkReg_eq_ok.mp (checkReg_of_lt h)⟩
  · exact .inr (by omega)

/-! The stack instructions on a legal operand, as one equation each. -/

theorem execPush_regByte (r : Fin 8) (s : State) :
    execPush (regByte r) s =
      if s.sp.toNat = 0 then raise (.outOfBounds (-1)) s
      else .next (((s.setReg spIndex (s.sp - 1)).setByte (s.sp - 1).toNat
        ((s.setReg spIndex (s.sp - 1)).reg r)).setPc (s.pc + 2)) := by
  simp only [execPush, checkReg_regByte, ok_bind, spSet_spBelow]
  split
  · rfl
  · rw [ok_bind, State.setReg_sp_sp, memWrite_byte]; rfl

theorem execPop_regByte (r : Fin 8) (s : State) :
    execPop (regByte r) s =
      if (s.setReg r (s.byte s.sp.toNat)).sp.toNat = 255 then raise (.outOfBounds 256) s
      else .next (((s.setReg r (s.byte s.sp.toNat)).setReg spIndex
        ((s.setReg r (s.byte s.sp.toNat)).sp + 1)).setPc (s.pc + 2)) := by
  simp only [execPop, checkReg_regByte, ok_bind, memRead_byte, spSet_spAbove]
  split <;> rfl

theorem execCall_regByte (r : Fin 8) (s : State) :
    execCall (regByte r) s =
      if s.sp.toNat = 0 then raise (.outOfBounds (-1)) s
      else if 256 ≤ s.pc + 2 then raise (.outOfBounds ((s.pc + 2 : Nat) : Int)) s
      else .next (((s.setReg spIndex (s.sp - 1)).setByte (s.sp - 1).toNat (narrow (s.pc + 2))).setPc
        ((s.setReg spIndex (s.sp - 1)).reg r).toNat) := by
  simp only [execCall, checkReg_regByte, ok_bind, spSet_spBelow]
  split
  · rfl
  · simp only [ok_bind, returnAddress]
    split
    · rfl
    · rw [ok_bind, State.setReg_sp_sp, memWrite_byte]; rfl

theorem execRet_eq (s : State) :
    execRet s =
      if s.sp.toNat = 255 then raise (.outOfBounds 256) s
      else .next ((s.setReg spIndex (s.sp + 1)).setPc (s.byte s.sp.toNat).toNat) := by
  simp only [execRet, memRead_byte, ok_bind, spSet_spAbove]
  split <;> rfl

variable {s t : State} {ra rb imm : Byte}

theorem execHlt_cases (h : execHlt s = .next t) : t = (s.setStatus (.halted s.pc)).setPc 0 := by
  simpa [execHlt] using h.symm

theorem execLdi_cases (h : execLdi ra imm s = .next t) :
    Raised s t ∨ ∃ a, ra = regByte a ∧ t = (s.setReg a imm).setPc (s.pc + 3) := by
  refine (commit_inv h).imp_right fun h => ?_
  obtain ⟨a, ha, ht⟩ := bind_eq_ok.mp h
  exact ⟨a, checkReg_eq_ok.mp ha, (Except.ok.inj ht).symm⟩

theorem execPrn_cases (h : execPrn ra s = .next t) :
    Raised s t ∨ ∃ a, ra = regByte a ∧ t = (s.emit (s.reg a)).setPc (s.pc + 2) := by
  refine (commit_inv h).imp_right fun h => ?_
  obtain ⟨a, ha, ht⟩ := bind_eq_ok.mp h
  exact ⟨a, checkReg_eq_ok.mp ha, (Except.ok.inj ht).symm⟩

/-- The two-register instructions but CMP: regA takes the ALU's result. -/
theorem aluTwoRegisters_cases {op : AluOp} (h : commit s (aluTwoRegisters op ra rb s) = .next t) :
    Raised s t ∨ ∃ a b v, ra = regByte a ∧ rb = regByte b ∧ alu s.cfg op (s.reg a) (s.reg b) = .ok v ∧
      t = (s.setReg a v).setPc (s.pc + 3) :=
  (commit_inv h).imp_right aluTwoRegisters_eq_ok

theorem execCmp_cases (h : execCmp ra rb s = .next t) :
    Raised s t ∨ ∃ a b, ra = regByte a ∧ rb = regByte b ∧
      t = (s.setFl (compareFlags (s.reg a) (s.reg b))).setPc (s.pc + 3) := by
  refine (commit_inv h).imp_right fun h => ?_
  obtain ⟨a, ha, h⟩ := bind_eq_ok.mp h
  obtain ⟨b, hb, h⟩ := bind_eq_ok.mp h
  exact ⟨a, b, checkReg_eq_ok.mp ha, checkReg_eq_ok.mp hb, (Except.ok.inj h).symm⟩

theorem execNot_cases (h : execNot ra s = .next t) :
    Raised s t ∨ ∃ a, ra = regByte a ∧ s.cfg.extAlu = true ∧ t = (s.setReg a (~~~(s.reg a))).setPc (s.pc + 2) := by
  refine (commit_inv h).imp_right fun h => ?_
  obtain ⟨a, ha, h⟩ := bind_eq_ok.mp h
  obtain ⟨v, hv, h⟩ := bind_eq_ok.mp h
  by_cases he : s.cfg.extAlu = true
  · rw [alu_of_ext he] at hv
    cases hv
    exact ⟨a, checkReg_eq_ok.mp ha, he, (Except.ok.inj h).symm⟩
  · rw [alu_unsupported (by simpa [aluSupports] using he)] at hv
    cases hv

theorem execPush_cases (h : execPush ra s = .next t) :
    Raised s t ∨ ∃ a, ra = regByte a ∧ s.sp.toNat ≠ 0 ∧
      t = ((s.setReg spIndex (s.sp - 1)).setByte (s.sp - 1).toNat
        ((s.setReg spIndex (s.sp - 1)).reg a)).setPc (s.pc + 2) := by
  refine (commit_inv h).imp_right fun h => ?_
  obtain ⟨a, ha, h⟩ := bind_eq_ok.mp h
  by_cases h0 : s.sp.toNat = 0
  · simp [spSet_spBelow, h0] at h
  · exact ⟨a, checkReg_eq_ok.mp ha, h0, by simpa [spSet_spBelow, h0] using h.symm⟩

theorem execPop_cases (h : execPop ra s = .next t) :
    Raised s t ∨ ∃ a, ra = regByte a ∧ (s.setReg a (s.byte s.sp.toNat)).sp.toNat ≠ 255 ∧
      t = ((s.setReg a (s.byte s.sp.toNat)).setReg spIndex
        ((s.setReg a (s.byte s.sp.toNat)).sp + 1)).setPc (s.pc + 2) := by
  refine (commit_inv h).imp_right fun h => ?_
  obtain ⟨a, ha, h⟩ := bind_eq_ok.mp h
  by_cases h0 : (s.setReg a (s.byte s.sp.toNat)).sp.toNat = 255
  · simp [spSet_spAbove, h0] at h
  · exact ⟨a, checkReg_eq_ok.mp ha, h0, by simpa [spSet_spAbove, h0] using h.symm⟩

theorem execCall_cases (h : execCall ra s = .next t) :
    Raised s t ∨ ∃ a, ra = regByte a ∧ s.sp.toNat ≠ 0 ∧ s.pc + 2 < 256 ∧
      t = ((s.setReg spIndex (s.sp - 1)).setByte (s.sp - 1).toNat (narrow (s.pc + 2))).setPc
        ((s.setReg spIndex (s.sp - 1)).reg a).toNat := by
  refine (commit_inv h).imp_right fun h => ?_
  obtain ⟨a, ha, h⟩ := bind_eq_ok.mp h
  by_cases h0 : s.sp.toNat = 0
  · simp [spSet_spBelow, h0] at h
  · by_cases h1 : 256 ≤ s.pc + 2
    · simp [spSet_spBelow, h0, returnAddress, h1] at h
    · exact ⟨a, checkReg_eq_ok.mp ha, h0, by omega, by simpa [spSet_spBelow, h0, returnAddress, h1] using h.symm⟩

theorem execRet_cases (h : execRet s = .next t) :
    Raised s t ∨ s.sp.toNat ≠ 255 ∧ t = (s.setReg spIndex (s.sp + 1)).setPc (s.byte s.sp.toNat).toNat := by
  refine (commit_inv h).imp_right fun h => ?_
  obtain ⟨v, hv, h⟩ := bind_eq_ok.mp h
  rw [memRead_byte] at hv
  cases hv
  by_cases h0 : s.sp.toNat = 255
  · simp [spSet_spAbove, h0] at h
  · exact ⟨h0, by simpa [spSet_spAbove, h0] using h.symm⟩

theorem execJmp_cases (h : execJmp ra s = .next t) :
    Raised s t ∨ ∃ a, ra = regByte a ∧ t = s.setPc (s.reg a).toNat := by
  refine (commit_inv h).imp_right fun h => ?_
  obtain ⟨a, ha, ht⟩ := bind_eq_ok.mp h
  exact ⟨a, checkReg_eq_ok.mp ha, (Except.ok.inj ht).symm⟩

theorem jumpIf_cases {taken : Bool} (h : commit s (jumpIf taken ra s) = .next t) :
    Raised s t ∨ ∃ a, ra = regByte a ∧ t = s.setPc (if taken then (s.reg a).toNat else s.pc + 2) := by
  refine (commit_inv h).imp_right fun h => ?_
  obtain ⟨a, ha, ht⟩ := bind_eq_ok.mp h
  exact ⟨a, checkReg_eq_ok.mp ha, (Except.ok.inj ht).symm⟩

end Sys2Proof.Machine
end

