-- ==== Sys2Proof/Laws/Fetch.lean ====
section
/-! SUPPORT. What the dispatch table and the fetch answer. -/

namespace Sys2Proof

/-- An entry of the dispatch table is a row the configuration has, under the byte the table gives it. -/
theorem dispatch_eq_some {c : Config} {op : Byte} {m : Mnemonic} (h : dispatch c op = some m) :
    c.has m = true ∧ c.opcodes.opcodeOf m = op := by
  have := List.find?_some h
  simpa using this

theorem Mnemonic.mem_all (m : Mnemonic) : m ∈ Mnemonic.all := by
  cases m <;> decide

/-- A row the configuration has is found under its byte, where the table gives different rows different bytes. -/
theorem dispatch_opcodeOf {c : Config} (hc : c.wf) {m : Mnemonic} (hm : c.has m = true) :
    dispatch c (c.opcodes.opcodeOf m) = some m := by
  have hsome : (dispatch c (c.opcodes.opcodeOf m)).isSome = true := by
    rw [dispatch, List.find?_isSome]
    exact ⟨m, m.mem_all, by simp [hm]⟩
  obtain ⟨m', h⟩ := Option.isSome_iff_exists.mp hsome
  rw [h]
  exact congrArg some (List.inj_on_of_nodup_map hc m'.mem_all m.mem_all (dispatch_eq_some h).2)

@[simp] theorem Mnemonic.build_mnemonic (a b : Byte) (m : Mnemonic) : (m.build a b).mnemonic = m := by
  cases m <;> rfl

/-- A row's instruction with its own bytes in front. -/
theorem encode_build (c : Config) (a b : Byte) (m : Mnemonic) :
    encode c (m.build a b) = c.opcodes.opcodeOf m :: [a, b].take m.format.operandCount := by
  cases m <;> rfl

/-- An instruction is its row's, with its own operand bytes. -/
theorem Instr.build_operands (i : Instr) : i.mnemonic.build (i.operands.getD 0 0) (i.operands.getD 1 0) = i := by
  cases i <;> rfl

namespace Machine

/-- What a successful operand fetch read. -/
theorem fetchOperands_eq_ok {s : State} {a n : Nat} {bs : List Byte} (h : fetchOperands s a n = .ok bs) :
    bs.length = n ∧ (n ≠ 0 → a + n ≤ 256) ∧ ∀ k (hk : k < bs.length), bs[k] = s.byte (a + k) := by
  induction n generalizing a bs with
  | zero => cases h; simp
  | succ n ih =>
    obtain ⟨b, hb, h⟩ := bind_eq_ok.mp h
    obtain ⟨r, hr, h⟩ := bind_eq_ok.mp h
    cases h
    obtain ⟨hl, hle, hk⟩ := ih hr
    rw [memRead_nat] at hb
    split at hb
    · cases hb
      refine ⟨by simp [hl], fun _ => ?_, fun k hk' => ?_⟩
      · rcases Nat.eq_zero_or_pos n with h0 | h0
        · omega
        · have := hle (by omega); omega
      · cases k with
        | zero => rfl
        | succ k => simpa [Nat.add_assoc, Nat.add_comm 1 k] using hk k (by simpa using hk')
    · cases hb

/-- An operand fetch inside memory succeeds. -/
theorem fetchOperands_ok {s : State} {a n : Nat} (h : a + n ≤ 256) :
    fetchOperands s a n = .ok ((List.range n).map fun k => s.byte (a + k)) := by
  induction n generalizing a with
  | zero => rfl
  | succ n ih =>
    rw [fetchOperands, memRead_nat, if_pos (by omega), ok_bind, ih (by omega), ok_bind]
    simp [List.range_succ_eq_map, Nat.add_assoc, Nat.add_comm 1, Function.comp_def]

/-- What a successful fetch read: the opcode byte, a row of the dispatch table, and its operand bytes, all inside memory. -/
theorem fetch_eq_ok {s : State} {op : Byte} {i : Instr} (h : fetch s = .ok (op, i)) :
    op = s.byte s.pc ∧ dispatch s.cfg op = some i.mnemonic ∧ s.pc + i.mnemonic.format.operandCount < 256 := by
  obtain ⟨b, hb, h⟩ := bind_eq_ok.mp h
  rw [memRead_nat] at hb
  split at hb
  · cases hb
    split at h
    · cases h
    · rename_i m hm
      obtain ⟨bs, hbs, h⟩ := bind_eq_ok.mp h
      cases h
      obtain ⟨-, hle, -⟩ := fetchOperands_eq_ok hbs
      refine ⟨rfl, by simpa using hm, ?_⟩
      simp only [Mnemonic.build_mnemonic]
      rcases Nat.eq_zero_or_pos m.format.operandCount with h0 | h0
      · omega
      · have := hle (by omega); omega
  · cases hb

end Machine

end Sys2Proof
end

