-- ==== Sys2Proof/Laws/PerInstr.lean ====
section
/-! SUPPORT. Statements made instruction by instruction, about the instruction as syntax. -/

/-- The shape of an encoding (30_encoding.md R51, R52): the row's opcode byte, then the operand bytes, `1 + n` bytes in all,
and the register bytes are the operand bytes, but for the immediate of LDI. -/
def Sys2Proof.Laws.EncodingShape.Statement (i : Sys2Proof.Instr) : Prop :=
  ∀ c : Sys2Proof.Config, Sys2Proof.encode c i = c.opcodes.opcodeOf i.mnemonic :: i.operands ∧
    (Sys2Proof.encode c i).length = i.length ∧ i.registerBytes <+: i.operands

theorem Sys2Proof.Laws.EncodingShape.hlt : Statement (.hlt) :=
  fun _ => ⟨rfl, rfl, [], rfl⟩

theorem Sys2Proof.Laws.EncodingShape.ldi (a b : Sys2Proof.Byte) : Statement (.ldi a b) :=
  fun _ => ⟨rfl, rfl, [b], rfl⟩

theorem Sys2Proof.Laws.EncodingShape.prn (a : Sys2Proof.Byte) : Statement (.prn a) :=
  fun _ => ⟨rfl, rfl, [], rfl⟩

theorem Sys2Proof.Laws.EncodingShape.add (a b : Sys2Proof.Byte) : Statement (.add a b) :=
  fun _ => ⟨rfl, rfl, [], rfl⟩

theorem Sys2Proof.Laws.EncodingShape.mul (a b : Sys2Proof.Byte) : Statement (.mul a b) :=
  fun _ => ⟨rfl, rfl, [], rfl⟩

theorem Sys2Proof.Laws.EncodingShape.and (a b : Sys2Proof.Byte) : Statement (.and a b) :=
  fun _ => ⟨rfl, rfl, [], rfl⟩

theorem Sys2Proof.Laws.EncodingShape.or (a b : Sys2Proof.Byte) : Statement (.or a b) :=
  fun _ => ⟨rfl, rfl, [], rfl⟩

theorem Sys2Proof.Laws.EncodingShape.xor (a b : Sys2Proof.Byte) : Statement (.xor a b) :=
  fun _ => ⟨rfl, rfl, [], rfl⟩

theorem Sys2Proof.Laws.EncodingShape.push (a : Sys2Proof.Byte) : Statement (.push a) :=
  fun _ => ⟨rfl, rfl, [], rfl⟩

theorem Sys2Proof.Laws.EncodingShape.pop (a : Sys2Proof.Byte) : Statement (.pop a) :=
  fun _ => ⟨rfl, rfl, [], rfl⟩

theorem Sys2Proof.Laws.EncodingShape.call (a : Sys2Proof.Byte) : Statement (.call a) :=
  fun _ => ⟨rfl, rfl, [], rfl⟩

theorem Sys2Proof.Laws.EncodingShape.ret : Statement (.ret) :=
  fun _ => ⟨rfl, rfl, [], rfl⟩

theorem Sys2Proof.Laws.EncodingShape.cmp (a b : Sys2Proof.Byte) : Statement (.cmp a b) :=
  fun _ => ⟨rfl, rfl, [], rfl⟩

theorem Sys2Proof.Laws.EncodingShape.jmp (a : Sys2Proof.Byte) : Statement (.jmp a) :=
  fun _ => ⟨rfl, rfl, [], rfl⟩

theorem Sys2Proof.Laws.EncodingShape.jeq (a : Sys2Proof.Byte) : Statement (.jeq a) :=
  fun _ => ⟨rfl, rfl, [], rfl⟩

theorem Sys2Proof.Laws.EncodingShape.jne (a : Sys2Proof.Byte) : Statement (.jne a) :=
  fun _ => ⟨rfl, rfl, [], rfl⟩

theorem Sys2Proof.Laws.EncodingShape.sub (a b : Sys2Proof.Byte) : Statement (.sub a b) :=
  fun _ => ⟨rfl, rfl, [], rfl⟩

theorem Sys2Proof.Laws.EncodingShape.div (a b : Sys2Proof.Byte) : Statement (.div a b) :=
  fun _ => ⟨rfl, rfl, [], rfl⟩

theorem Sys2Proof.Laws.EncodingShape.mod (a b : Sys2Proof.Byte) : Statement (.mod a b) :=
  fun _ => ⟨rfl, rfl, [], rfl⟩

theorem Sys2Proof.Laws.EncodingShape.not (a : Sys2Proof.Byte) : Statement (.not a) :=
  fun _ => ⟨rfl, rfl, [], rfl⟩
end

