-- ==== Sys2Proof/Laws/Step.lean ====
section
/-! SUPPORT. What a step can do, and the induction over a run, once. -/

namespace Sys2Proof.Machine

/-- Every handler is a committed computation. -/
theorem exec_commits (i : Instr) (s : State) : ∃ x, exec i s = commit s x := by
  cases i <;> simp only [exec, execHlt, execLdi, execPrn, execPush, execPop, execCall, execRet, execJmp, execJeq, execJne,
    execNot, execAdd, execMul, execAnd, execOr, execXor, execCmp, execSub, execDiv, execMod] <;> exact ⟨_, rfl⟩

/-- The two ways a step of a running machine goes: the fetch raised an error, or the fetched instruction ran, and IR takes
its opcode byte unless it raised one. -/
theorem step_cases {s t : State} (h : step s = .next t) : s.status = .running ∧
    ((∃ k, fetch s = .error k ∧ t = s.setStatus (.faulted { kind := k, pc := some s.pc })) ∨
      ∃ op i u, fetch s = .ok (op, i) ∧ exec i s = .next u ∧ t = if u.status.isFaulted then u else u.setIr op) := by
  unfold step at h
  cases hs : s.status with
  | idle => simp [hs] at h
  | halted p => simp [hs] at h
  | faulted e => simp [hs] at h
  | running =>
    simp only [hs] at h
    refine ⟨rfl, ?_⟩
    split at h
    · rename_i k hk; cases h; exact .inl ⟨k, hk, rfl⟩
    · rename_i op i hf
      obtain ⟨x, hx⟩ := exec_commits i s
      obtain ⟨u, hu⟩ := commit_next s x
      rw [hx, hu] at h
      cases h
      exact .inr ⟨op, i, u, hf, hx.trans hu, rfl⟩

/-- What every step keeps, every run keeps. -/
theorem runLoop_keeps {P : State → Prop} (hP : ∀ s t, P s → step s = .next t → P t) (n : Nat) {s : State} (h : P s) :
    P (runLoop n s) := by
  induction n generalizing s with
  | zero => exact h
  | succ n ih =>
    rw [runLoop]
    split
    · rename_i t ht; exact ih (hP s t h ht)
    · exact h
    · exact h

end Sys2Proof.Machine
end

