-- ==== Sys2Proof/Machine/Trace.lean ====
section
/-! DEFINITION. The fields of the optional trace line (60_exceptions.md R126; D16, log 21). It reads the state before a
fetch, changes nothing and raises no error. Its separators are not in the spec's scope (00_scope.md R6 (e)). -/

namespace Sys2Proof.Machine

/-- An uppercase hexadecimal digit. -/
def hexDigit (n : Nat) : Char := if n < 10 then Char.ofNat (0x30 + n) else Char.ofNat (0x37 + n)

/-- A byte as two-digit uppercase hexadecimal. -/
def hexByte (v : Byte) : List Char := [hexDigit (v.toNat / 16), hexDigit (v.toNat % 16)]

/-- A memory cell's field; a byte beyond 255 is shown as `--` (D16). -/
def traceCell (s : State) (a : Nat) : List Char := if a < memSize then hexByte (s.byte a) else ['-', '-']

/-- The fields of a trace line: PC, the three bytes at PC, PC + 1 and PC + 2, and the 8 registers. -/
structure TraceLine where
  /-- Absent where PC has no two-digit form, which is at 256 (log 21). -/
  pc : Option (List Char)
  bytes : List (List Char)
  regs : List (List Char)
  deriving DecidableEq, Repr

/-- The trace line of a state. -/
def traceLine (s : State) : TraceLine where
  pc := if s.pc < memSize then some (hexByte (narrow s.pc)) else none
  bytes := [s.pc, s.pc + 1, s.pc + 2].map (traceCell s)
  regs := s.regs.toList.map hexByte

end Sys2Proof.Machine
end

