-- ==== Sys2Proof/Machine/Assembly.lean ====
section
/-! DEFINITION. The assembler text of an instruction (00_scope.md R15; 30_encoding.md R64; D17). Notation only: no
instruction depends on it, and the source's text loader is out of scope (00_scope.md R6 (a)). -/

namespace Sys2Proof.Machine

/-- A row's mnemonic as text. -/
def mnemonicText : Mnemonic → String
  | .HLT => "HLT"
  | .LDI => "LDI"
  | .PRN => "PRN"
  | .ADD => "ADD"
  | .MUL => "MUL"
  | .AND => "AND"
  | .OR => "OR"
  | .XOR => "XOR"
  | .PUSH => "PUSH"
  | .POP => "POP"
  | .CALL => "CALL"
  | .RET => "RET"
  | .CMP => "CMP"
  | .JMP => "JMP"
  | .JEQ => "JEQ"
  | .JNE => "JNE"
  | .SUB => "SUB"
  | .DIV => "DIV"
  | .MOD => "MOD"
  | .NOT => "NOT"

/-- A register operand, `R0` to `R7`; a byte of 8 or more names no register and has no text. -/
def registerText (b : Byte) : Option String :=
  if b.toNat < 8 then some ("R" ++ String.ofList [hexDigit b.toNat]) else none

/-- An immediate operand as a hexadecimal literal (00_scope.md R11, R15). -/
def immediateText (b : Byte) : String := "0x" ++ String.ofList (hexByte b)

/-- Operands are separated by a comma and a space, in the order of the format (R15, R64). -/
def assemblyText (i : Instr) : Option String :=
  match i.mnemonic.format, i.operands with
  | .none, _ => some (mnemonicText i.mnemonic)
  | .reg, a :: _ => (registerText a).map fun ra => mnemonicText i.mnemonic ++ " " ++ ra
  | .regImm, a :: b :: _ => (registerText a).map fun ra => mnemonicText i.mnemonic ++ " " ++ ra ++ ", " ++ immediateText b
  | .regReg, a :: b :: _ =>
    (registerText a).bind fun ra => (registerText b).map fun rb => mnemonicText i.mnemonic ++ " " ++ ra ++ ", " ++ rb
  | .reg, [] | .regImm, [] | .regImm, [_] | .regReg, [] | .regReg, [_] => none

end Sys2Proof.Machine
end

