-- ==== Sys2Proof/Tests/Slice0.lean ====
section
/-! SUPPORT. Tests and witnesses. Expected values come from the opcode map (30_encoding.md R60), the rules, and the vectors
of 95_test_vectors.md, named V-… or W… as there. A witness shows that the hypotheses of a statement can be met. -/

namespace Sys2Proof.Tests

open Sys2Proof Sys2Proof.Machine

/-! ## Helpers -/

/-- The state after reset with `EXT_ALU = true`. -/
def extReset : State := State.construct Config.extended

/-- Bytes at address `p`, PC there, and the machine running. -/
def place (p : Nat) (bs : List Byte) (s : State) : State :=
  { s with pc := p, status := .running, mem := s.mem.setAll p bs }

/-- The next state, if the outcome is one. -/
def nextOf : Host.Outcome State Fault Refusal → Option State
  | .next t => some t
  | .fault _ => none
  | .refused _ => none

/-- The state after one step. -/
def after (s : State) : Option State := nextOf (step s)

/-- The step raised error `k` at `p` and changed nothing else. -/
def faults (s : State) (k : ErrorKind) (p : Nat) : Bool :=
  after s == some { s with status := .faulted { kind := k, pc := some p } }

/-! ## WellFormed: each check refuses an ill-formed term -/

theorem test_wf_accepts :
    Instr.wellFormed Config.default (.ldi 7 0xFF) = true ∧ Instr.wellFormed Config.default (.add 7 0) = true ∧
      Instr.wellFormed Config.extended (.not 7) = true ∧ Instr.wellFormed Config.default .hlt = true := by decide

theorem test_wf_refuses_register_byte_R : Instr.wellFormed Config.default (.prn 8) = false := by decide

theorem test_wf_refuses_register_byte_RI : Instr.wellFormed Config.default (.ldi 8 0) = false := by decide

theorem test_wf_refuses_register_byte_RR_A : Instr.wellFormed Config.default (.cmp 0xFF 0) = false := by decide

theorem test_wf_refuses_register_byte_RR_B : Instr.wellFormed Config.default (.cmp 0 8) = false := by decide

theorem test_wf_refuses_row_without_EXT_ALU :
    Instr.wellFormed Config.default (.sub 0 1) = false ∧ Instr.wellFormed Config.default (.not 0) = false := by decide

theorem test_config_wf_default : Config.default.wf ∧ Config.extended.wf := by decide

theorem test_config_wf_refuses_shared_opcode :
    ¬ Config.wf { Config.default with opcodes := { defaultOpcodes with ldi := 0x01 } } := by decide

/-! ## Decode: every constructor from a word written out from the opcode map -/

theorem test_decode_formats_N_and_R :
    decode Config.default [0b00000001] = .ok (.hlt, []) ∧
    decode Config.default [0b00010001] = .ok (.ret, []) ∧
    decode Config.default [0b01000111, 0x01] = .ok (.prn 1, []) ∧
    decode Config.default [0b01000101, 0x02] = .ok (.push 2, []) ∧
    decode Config.default [0b01000110, 0x03] = .ok (.pop 3, []) ∧
    decode Config.default [0b01010000, 0x04] = .ok (.call 4, []) ∧
    decode Config.default [0b01010100, 0x05] = .ok (.jmp 5, []) ∧
    decode Config.default [0b01010101, 0x06] = .ok (.jeq 6, []) ∧
    decode Config.default [0b01010110, 0x07] = .ok (.jne 7, []) := by decide

theorem test_decode_formats_RI_and_RR :
    decode Config.default [0b10000010, 0x01, 0xFE] = .ok (.ldi 1 0xFE, []) ∧
    decode Config.default [0b10100000, 0x01, 0x02] = .ok (.add 1 2, []) ∧
    decode Config.default [0b10100010, 0x01, 0x02] = .ok (.mul 1 2, []) ∧
    decode Config.default [0b10101000, 0x01, 0x02] = .ok (.and 1 2, []) ∧
    decode Config.default [0b10101010, 0x01, 0x02] = .ok (.or 1 2, []) ∧
    decode Config.default [0b10101011, 0x01, 0x02] = .ok (.xor 1 2, []) ∧
    decode Config.default [0b10100111, 0x01, 0x02] = .ok (.cmp 1 2, []) := by decide

theorem test_decode_EXT_ALU :
    decode Config.extended [0b10100001, 0x01, 0x02] = .ok (.sub 1 2, []) ∧
    decode Config.extended [0b10100011, 0x01, 0x02] = .ok (.div 1 2, []) ∧
    decode Config.extended [0b10100100, 0x01, 0x02] = .ok (.mod 1 2, []) ∧
    decode Config.extended [0b01101001, 0x01] = .ok (.not 1, []) := by decide

/-- An operand byte of 8 or more is kept whole; what follows the instruction is left over. -/
theorem test_decode_keeps_operands_and_rest :
    decode Config.default [0xA0, 0x08, 0xFF, 0x01] = .ok (.add 8 0xFF, [0x01]) := by decide

theorem test_decode_rejects_by_name :
    decode Config.default [] = .error .noOpcode ∧
    decode Config.default [0x57, 0x00] = .error (.unknownOpcode 0x57) ∧
    decode Config.default [0x69, 0x00] = .error (.unknownOpcode 0x69) ∧
    decode Config.default [0x47] = .error (.missingOperand 1) ∧
    decode Config.default [0x82, 0x00] = .error (.missingOperand 2) := by decide

theorem test_decodeTableWord :
    decodeTableWord 8 0x01 = some .hlt ∧ decodeTableWord 16 0x0247 = some (.prn 2) ∧
      decodeTableWord 24 0x2A0282 = some (.ldi 2 0x2A) ∧ decodeTableWord 8 0x82 = some (.ldi 0 0) ∧
      decodeTableWord 24 0x0201A1 = some (.sub 1 2) ∧ decodeTableWord 8 0x00 = none := by decide

/-- A placed word runs as the first instruction after reset. -/
theorem test_withFetchWord_runs :
    (after (State.reset.withFetchWord 24 0x2A0282)).map (fun t => (t.reg 2, t.pc)) = some (0x2A, 3) ∧
    (after (State.reset.withFetchWord 16 0x0169)).map (fun t => (t.reg 1, t.pc)) = some (0xFF, 2) := by decide

/-! ## Sequencer -/

/-- V-FETCH-1, V-FETCH-3: the opcode is looked up before any operand is read. -/
theorem test_fetch_unknown :
    faults (place 0 [] State.reset) (.invalidOpcode 0x00) 0 = true ∧
    faults (place 255 [] State.reset) (.invalidOpcode 0x00) 255 = true ∧
    faults (place 0 [0x57, 0x00] State.reset) (.invalidOpcode 0x57) 0 = true := by decide

/-- V-FETCH-2. -/
theorem test_fetch_at_256 : faults (place 256 [] State.reset) (.outOfBounds 256) 256 = true := by decide

/-- V-FETCH-6, V-FETCH-7: without `EXT_ALU`. -/
theorem test_fetch_needs_EXT_ALU :
    faults (place 0 [0xA1, 0x00, 0x01] State.reset) (.invalidOpcode 0xA1) 0 = true ∧
    faults (place 0 [0x69, 0x00] State.reset) (.invalidOpcode 0x69) 0 = true := by decide

/-- V-LDI-3, V-PRN-4, V-CALL-4, V-CMP-7: an operand beyond memory. -/
theorem test_operand_fetch_at_256 :
    faults (place 0xFE [0x82, 0x00] State.reset) (.outOfBounds 256) 254 = true ∧
    faults (place 0xFF [0x47] State.reset) (.outOfBounds 256) 255 = true ∧
    faults (place 0xFF [0x50] State.reset) (.outOfBounds 256) 255 = true ∧
    faults (place 0xFE [0xA7, 0x00] State.reset) (.outOfBounds 256) 254 = true := by decide

/-- V-LDI-2, V-PRN-6, V-ADD-5, V-ADD-6, V-JEQ-5: the register check, `A` before `B`. -/
theorem test_register_check :
    faults (place 0 [0x82, 0x08, 0x2A] State.reset) (.invalidRegister 8) 0 = true ∧
    faults (place 0 [0x47, 0xFF] State.reset) (.invalidRegister 0xFF) 0 = true ∧
    faults (place 0 [0xA0, 0x08, 0x09] State.reset) (.invalidRegister 8) 0 = true ∧
    faults (place 0 [0xA0, 0x00, 0x09] State.reset) (.invalidRegister 9) 0 = true ∧
    faults ((place 0 [0x55, 0x08] State.reset).setFl 2) (.invalidRegister 8) 0 = true := by decide

/-- IR holds the opcode byte the step fetched (R29). -/
theorem test_ir : (after (place 0 [0x82, 0x02, 0x2A] State.reset)).map (·.ir) = some (some 0x82) := by decide

/-- R67. -/
theorem test_no_step_when_idle : step State.reset = .fault .notStarted := rfl

/-! ## HLT, LDI, PRN -/

/-- V-HLT-2, V-FETCH-4. -/
theorem test_hlt :
    (after ((place 0x40 [0x01] State.reset).setReg 0 5)).map (fun t => (t.status, t.pc, t.reg 0)) = some (.halted 64, 0, 5) ∧
    (after (place 0xFF [0x01] State.reset)).map (fun t => (t.status, t.pc)) = some (.halted 255, 0) := by decide

/-- V-LDI-4, V-LDI-5. -/
theorem test_ldi :
    (after (place 0xFD [0x82, 0x00, 0x07] State.reset)).map (fun t => (t.reg 0, t.pc)) = some (0x07, 256) ∧
    (after (place 0 [0x82, 0x07, 0x10] State.reset)).map (fun t => (t.sp, t.pc)) = some (0x10, 3) := by decide

/-- V-PRN-1, V-PRN-5. -/
theorem test_prn :
    (after ((place 5 [0x47, 0x00] State.reset).setReg 0 0xFE)).map (fun t => (t.out, t.pc)) = some ([254], 7) ∧
    (after (place 0 [0x47, 0x07] State.reset)).map (·.out) = some [244] := by decide

/-! ## ALU -/

/-- Registers R0 and R1 set, an instruction over them at 0, and the result in R0 with FL and PC. -/
def aluRun (s : State) (op a b : Byte) : Option (Byte × Byte × Byte × Nat) :=
  (after (((place 0 [op, 0x00, 0x01] s).setReg 0 a).setReg 1 b)).map fun t => (t.reg 0, t.reg 1, t.fl, t.pc)

/-- V-ADD-7, V-ADD-3 (W2's shape: a register added to itself). -/
theorem test_add :
    aluRun (State.reset.setFl 4) 0xA0 0xFF 0x01 = some (0x00, 0x01, 0x04, 3) ∧
    (after ((place 0 [0xA0, 0x00, 0x00] State.reset).setReg 0 0x81)).map (·.reg 0) = some 0x02 := by decide

/-- V-MUL-2, V-MUL-3. -/
theorem test_mul :
    aluRun State.reset 0xA2 0xFF 0xFF = some (0x01, 0xFF, 0, 3) ∧
    aluRun State.reset 0xA2 0xC8 0x03 = some (0x58, 0x03, 0, 3) := by decide

/-- V-AND-1. -/
theorem test_and : aluRun State.reset 0xA8 0x0A 0x06 = some (0x02, 0x06, 0, 3) := by decide

/-- V-OR-1. -/
theorem test_or : aluRun State.reset 0xAA 0x0A 0x06 = some (0x0E, 0x06, 0, 3) := by decide

/-- V-XOR-1. -/
theorem test_xor : aluRun State.reset 0xAB 0x0A 0x06 = some (0x0C, 0x06, 0, 3) := by decide

/-- V-CMP-2, V-CMP-4, V-CMP-5: unsigned. -/
theorem test_cmp :
    aluRun State.reset 0xA7 0x06 0x05 = some (0x06, 0x05, 2, 3) ∧
    aluRun State.reset 0xA7 0x80 0x7F = some (0x80, 0x7F, 2, 3) ∧
    aluRun State.reset 0xA7 0x00 0xFF = some (0x00, 0xFF, 4, 3) := by decide

/-- V-CMP-6: the old FL is replaced. -/
theorem test_cmp_same_register :
    (after (((place 0 [0xA7, 0x03, 0x03] State.reset).setReg 3 9).setFl 4)).map (·.fl) = some 1 := by decide

/-- V-SUB-1, V-SUB-2. -/
theorem test_sub :
    aluRun extReset 0xA1 0x05 0x07 = some (0xFE, 0x07, 0, 3) ∧
    aluRun extReset 0xA1 0x00 0x01 = some (0xFF, 0x01, 0, 3) := by decide

/-- V-DIV-1, V-DIV-3. -/
theorem test_div :
    aluRun extReset 0xA3 0x07 0x02 = some (0x03, 0x02, 0, 3) ∧
    aluRun extReset 0xA3 0xFF 0xFF = some (0x01, 0xFF, 0, 3) := by decide

/-- V-DIV-2. -/
theorem test_div_by_zero :
    faults ((place 0 [0xA3, 0x00, 0x01] extReset).setReg 0 7) .divideByZero 0 = true := by decide

/-- V-MOD-2, V-MOD-3. -/
theorem test_mod :
    aluRun extReset 0xA4 0x05 0x07 = some (0x05, 0x07, 0, 3) ∧
    aluRun extReset 0xA4 0xFF 0x10 = some (0x0F, 0x10, 0, 3) := by decide

/-- V-MOD-4. -/
theorem test_mod_by_zero : faults (place 0 [0xA4, 0x00, 0x00] extReset) .divideByZero 0 = true := by decide

/-- V-NOT-1. -/
theorem test_not :
    (after ((place 0 [0x69, 0x03] extReset).setReg 3 0x0F)).map (fun t => (t.reg 3, t.pc)) = some (0xF0, 2) := by decide

/-! ## Stack -/

/-- V-PUSH-1, V-PUSH-2. -/
theorem test_push :
    (after ((place 0 [0x45, 0x00] State.reset).setReg 0 0x2A)).map (fun t => (t.sp, t.byte 0xF3, t.pc)) =
      some (0xF3, 0x2A, 2) ∧
    (after (place 0 [0x45, 0x07] State.reset)).map (fun t => (t.sp, t.byte 0xF3)) = some (0xF3, 0xF3) := by decide

/-- V-PUSH-3, V-PUSH-4. -/
theorem test_push_edges :
    faults ((place 0 [0x45, 0x00] State.reset).setReg 7 0) (.outOfBounds (-1)) 0 = true ∧
    (after (((place 0 [0x45, 0x00] State.reset).setReg 7 1).setReg 0 0x99)).map (fun t => (t.sp, t.byte 0)) =
      some (0x00, 0x99) := by decide

/-- V-POP-1, V-POP-4. -/
theorem test_pop :
    (after (((place 0 [0x46, 0x01] State.reset).setReg 7 0xF3).setByte 0xF3 0x2A)).map
      (fun t => (t.reg 1, t.sp, t.byte 0xF3, t.pc)) = some (0x2A, 0xF4, 0x2A, 2) ∧
    (after (((place 0 [0x46, 0x07] State.reset).setReg 7 0xFF).setByte 0xFF 0x10)).map (·.sp) = some 0x11 := by decide

/-- V-POP-2, V-POP-5. -/
theorem test_pop_edges :
    faults ((place 0 [0x46, 0x00] State.reset).setReg 7 0xFF) (.outOfBounds 256) 0 = true ∧
    faults (((place 0 [0x46, 0x07] State.reset).setReg 7 0xF3).setByte 0xF3 0xFF) (.outOfBounds 256) 0 = true := by decide

/-! ## Control flow -/

/-- V-CALL-1, V-CALL-2. -/
theorem test_call :
    (after ((place 6 [0x50, 0x01] State.reset).setReg 1 0x0B)).map (fun t => (t.sp, t.byte 0xF3, t.pc)) =
      some (0xF3, 0x08, 0x0B) ∧
    (after (place 0 [0x50, 0x07] State.reset)).map (fun t => (t.sp, t.byte 0xF3, t.pc)) = some (0xF3, 0x02, 0xF3) := by decide

/-- V-CALL-3, V-CALL-6: SP before the return address. -/
theorem test_call_edges :
    faults ((place 0xFE [0x50, 0x01] State.reset).setReg 1 0x10) (.outOfBounds 256) 254 = true ∧
    faults ((place 0xFE [0x50, 0x01] State.reset).setReg 7 0) (.outOfBounds (-1)) 254 = true := by decide

/-- V-RET-1, V-FETCH-5. -/
theorem test_ret :
    (after (((place 0 [0x11] State.reset).setReg 7 0xF3).setByte 0xF3 0x08)).map (fun t => (t.pc, t.sp)) = some (0x08, 0xF4) ∧
    (after (((place 0xFF [0x11] State.reset).setReg 7 0xF3).setByte 0xF3 0x20)).map (fun t => (t.pc, t.sp)) =
      some (0x20, 0xF4) := by decide

/-- V-RET-2. -/
theorem test_ret_edge : faults ((place 9 [0x11] State.reset).setReg 7 0xFF) (.outOfBounds 256) 9 = true := by decide

/-- V-JMP-1. -/
theorem test_jmp : (after ((place 0 [0x54, 0x03] State.reset).setReg 3 0x0F)).map (·.pc) = some 0x0F := by decide

/-- V-JEQ-1 to V-JEQ-4. -/
theorem test_jeq :
    [1, 2, 4, 0].map (fun f => (after (((place 0 [0x55, 0x03] State.reset).setReg 3 0x16).setFl f)).map (·.pc)) =
      [some 0x16, some 2, some 2, some 2] := by decide

/-- V-JNE-1 to V-JNE-4. -/
theorem test_jne :
    [1, 2, 4, 0].map (fun f => (after (((place 0 [0x56, 0x03] State.reset).setReg 3 0x0F).setFl f)).map (·.pc)) =
      [some 2, some 0x0F, some 0x0F, some 0x0F] := by decide

/-! ## Host operations, console, trace, assembler -/

/-- V-LOAD-1 to V-LOAD-4. -/
theorem test_load :
    load (.tokens []) State.reset = .loaded State.reset ∧
    load (.tokens [.int 256]) State.reset = .failed (.loadError (some 0)) ∧
    load (.tokens [.int 1, .int 2, .int 300]) State.reset = .failed (.loadError (some 2)) := by decide

theorem test_load_too_long :
    load (.tokens (List.replicate 257 (.int 1))) State.reset = .failed (.outOfBounds 256) := by decide +kernel

/-- W10: `HLT` alone, one step. -/
theorem test_run_hlt :
    load (.ofBytes [0x01]) State.reset = .loaded { State.reset with mem := ⟨[(0, 0x01)]⟩ } ∧
    hostRun 1 { State.reset with mem := ⟨[(0, 0x01)]⟩ } =
      { State.reset with mem := ⟨[(0, 0x01)]⟩, status := .halted 0, ir := some 0x01 } := by decide

/-- V-LOAD-7: a faulted machine refuses `load`. -/
theorem test_load_refused :
    load (.ofBytes [0x01]) (hostStep State.reset) = .refused { kind := .invalidOpcode 0, pc := some 0 } := by decide

/-- V-PRN-2, V-PRN-3. -/
theorem test_console : consoleText [255, 0, 42] = ['2', '5', '5', '\n', '0', '\n', '4', '2', '\n'] := by decide

/-- R126, D16: a byte beyond 255 is shown as `--`. -/
theorem test_trace :
    traceLine (place 0xFE [0xA7, 0x0B] State.reset) =
      { pc := some ['F', 'E'], bytes := [['A', '7'], ['0', 'B'], ['-', '-']]
        regs := [['0', '0'], ['0', '0'], ['0', '0'], ['0', '0'], ['0', '0'], ['0', '0'], ['0', '0'], ['F', '4']] } := by decide

/-- 00_scope.md R15's example, and a two-register form of program P2. -/
theorem test_assembly :
    assemblyText (.ldi 0 8) = some "LDI R0, 0x08" ∧ assemblyText (.add 0 2) = some "ADD R0, R2" ∧
      assemblyText .ret = some "RET" ∧ assemblyText (.prn 8) = none := by decide

/-! ## Witnesses: the hypotheses of each statement can be met, each clause at an end of its range -/

theorem witness_SubResult_ComplementResult : extReset.cfg.extAlu = true := by decide

theorem witness_DivideResult_RemainderResult :
    (extReset.setReg 1 1).cfg.extAlu = true ∧ (extReset.setReg 1 1).reg 1 ≠ 0 ∧ (extReset.setReg 1 0xFF).reg 1 ≠ 0 := by decide

theorem witness_CompareResult :
    State.reset.reg 0 = State.reset.reg 1 ∧
    (State.reset.reg 0).toNat < ((State.reset.setReg 1 1).reg 1).toNat ∧
    ((State.reset.setReg 0 0xFF).reg 1).toNat < ((State.reset.setReg 0 0xFF).reg 0).toNat := by decide

theorem witness_PushResult :
    (0xF3 : Byte).toNat + 1 = State.reset.sp.toNat ∧ (0 : Byte).toNat + 1 = (State.reset.setReg 7 1).sp.toNat ∧
    (0xFE : Byte).toNat + 1 = (State.reset.setReg 7 0xFF).sp.toNat := by decide

theorem witness_PopResult :
    (0 : Fin 8) ≠ 7 ∧ (0xFF : Byte).toNat = (State.reset.setReg 7 0xFE).sp.toNat + 1 ∧
    (1 : Byte).toNat = (State.reset.setReg 7 0).sp.toNat + 1 ∧
    (1 : Byte).toNat = (State.reset.byte State.reset.sp.toNat).toNat + 1 ∧
    (0xFF : Byte).toNat = ((State.reset.setByte 0xF4 0xFE).byte State.reset.sp.toNat).toNat + 1 := by decide

theorem witness_CallResult :
    (0 : Byte).toNat + 1 = ((State.reset.setReg 7 1).setPc 253).sp.toNat ∧
    (0xFF : Byte).toNat = ((State.reset.setReg 7 1).setPc 253).pc + 2 ∧ (2 : Byte).toNat = State.reset.pc + 2 := by decide

theorem witness_ReturnResult : (0xFF : Byte).toNat = (State.reset.setReg 7 0xFE).sp.toNat + 1 := by decide

theorem witness_ConditionalJumpResults :
    (State.reset.setFl 1).fl.toNat % 2 = 1 ∧ State.reset.fl.toNat % 2 = 0 := by decide

theorem witness_IllegalRegisterByteRaisesInvalidRegister :
    8 ≤ (8 : Byte).toNat ∧ 8 ≤ (0xFF : Byte).toNat ∧ (7 : Byte).toNat < 8 := by decide

theorem witness_StackErrorsRaiseOutOfBounds :
    (State.reset.setReg 7 0).sp = 0 ∧ (State.reset.setReg 7 0xFF).sp = 0xFF ∧ (6 : Fin 8) ≠ 7 ∧
    (State.reset.setByte 0xF4 0xFF).byte State.reset.sp.toNat = 0xFF ∧
    ((State.reset.setPc 254).setReg 7 1).pc = 254 ∧ ((State.reset.setPc 254).setReg 7 1).sp ≠ 0 := by decide

theorem witness_ZeroDivisorRaisesDivideByZero : extReset.cfg.extAlu = true ∧ extReset.reg 1 = 0 := by decide

theorem witness_MissingAluOperationIsUnsupported : State.reset.cfg.extAlu = false := by decide

/-- For ErrorsAreAtomicAndPrecise and StepNeverRaisesUnsupportedOrLoadError. -/
theorem witness_errors :
    step (place 7 [] State.reset) =
      .next ((place 7 [] State.reset).setStatus (.faulted { kind := .invalidOpcode 0, pc := some 7 })) := rfl

/-- One instruction that completes and one that raises an error. -/
theorem witness_StepRunsTheDecodedInstruction :
    decode Config.default (place 0 [0x82, 0x02, 0x2A] State.reset).bytesAtPc = .ok (.ldi 2 0x2A, []) ∧
    ((nextOf (exec (.ldi 2 0x2A) (place 0 [0x82, 0x02, 0x2A] State.reset))).map (·.status.isFaulted)) = some false ∧
    decode Config.default (place 0 [0x82, 0x08, 0x2A] State.reset).bytesAtPc = .ok (.ldi 8 0x2A, []) ∧
    ((nextOf (exec (.ldi 8 0x2A) (place 0 [0x82, 0x08, 0x2A] State.reset))).map (·.status.isFaulted)) = some true := by decide

theorem witness_StepExistsExactlyWhenRunning :
    State.reset.status = .idle ∧ (State.reset.setStatus (.halted 0)).status = .halted 0 ∧
    (State.reset.setStatus (.faulted { kind := .divideByZero, pc := some 0 })).status =
      .faulted { kind := .divideByZero, pc := some 0 } ∧
    (nextOf (step (place 0 [0x01] State.reset))).isSome = true := by decide

theorem witness_FetchReadsTheByteAtPc :
    (place 255 [0x01] State.reset).status = .running ∧
    (after (place 255 [0x01] State.reset)).map (fun t => (t.status.isFaulted, t.ir)) = some (false, some 0x01) ∧
    (place 256 [] State.reset).status = .running := by decide

theorem witness_UnknownOpcodeRaisesInvalidOpcode :
    (place 255 [] State.reset).status = .running ∧
    dispatch Config.default ((place 255 [] State.reset).byte 255) = none := by decide

/-- The last address at which the operands fit, and the first at which they do not. -/
theorem witness_OperandFetchReadsExactlyTheOperands :
    dispatch Config.default ((place 255 [0x11] State.reset).byte 255) = some .RET ∧ 255 + Mnemonic.RET.format.operandCount < 256 ∧
    dispatch Config.default ((place 253 [0x82] State.reset).byte 253) = some .LDI ∧ 253 + Mnemonic.LDI.format.operandCount < 256 ∧
    dispatch Config.default ((place 255 [0x47] State.reset).byte 255) = some .PRN ∧ 256 ≤ 255 + Mnemonic.PRN.format.operandCount ∧
    dispatch Config.default ((place 254 [0x82] State.reset).byte 254) = some .LDI ∧ 256 ≤ 254 + Mnemonic.LDI.format.operandCount := by
  decide

/-- Every instruction of the frame answers a next state that is no error. -/
theorem witness_RegisterWritersFrame :
    ∀ i ∈ ([.ldi 0 1, .add 0 1, .mul 0 1, .and 0 1, .or 0 1, .xor 0 1, .sub 0 1, .div 0 1, .mod 0 1, .not 0] : List Instr),
      (nextOf (exec i (extReset.setReg 1 3))).map (·.status.isFaulted) = some false := by decide

theorem witness_NoRegisterWrittenFrame :
    ∀ i ∈ ([.hlt, .prn 0, .cmp 0 1, .jmp 0, .jeq 0, .jne 0] : List Instr),
      (nextOf (exec i State.reset)).map (·.status.isFaulted) = some false := by decide

/-- Completing, with `spSet` answering, and failing, with `spSet` raising an error. -/
theorem witness_StackWritersFrame :
    (∀ i ∈ ([.push 0, .call 0] : List Instr), (nextOf (exec i State.reset)).map (·.status.isFaulted) = some false) ∧
    spSet State.reset.spBelow State.reset = .ok (State.reset.setReg 7 0xF3) ∧
    spSet (State.reset.setReg 7 0).spBelow (State.reset.setReg 7 0) = .error (.outOfBounds (-1)) ∧
    (∀ i ∈ ([.push 0, .call 0] : List Instr),
      (nextOf (exec i (State.reset.setReg 7 0))).map (·.status.isFaulted) = some true) := by decide

theorem witness_StackReadersFrame :
    ∀ i ∈ ([.pop 0, .pop 7, .ret] : List Instr),
      (nextOf (exec i State.reset)).map (·.status.isFaulted) = some false := by decide

theorem witness_FlagsAreSetExclusivelyByCompare :
    (nextOf (exec (.cmp 0 1) State.reset)).map (fun t => t.fl != State.reset.fl) = some true := by decide

/-- Both ways to meet the hypothesis: an instruction that is no equality jump, and a jump with bit 0 kept. -/
theorem witness_FlagsAreReadOnlyByEqualityJumps :
    (∀ a, Instr.cmp 0 1 ≠ .jeq a ∧ Instr.cmp 0 1 ≠ .jne a) ∧ (nextOf (exec (.cmp 0 1) State.reset)).isSome = true ∧
    (0xFE : Byte).getLsbD 0 = State.reset.fl.getLsbD 0 ∧ (nextOf (exec (.jeq 0) State.reset)).isSome = true :=
  ⟨fun _ => ⟨Instr.noConfusion, Instr.noConfusion⟩, by decide, by decide, by decide⟩

theorem witness_OnlyPrintWritesTheOutputLog :
    (nextOf (exec (.prn (regByte 7)) State.reset)).map (·.out) = some [0xF4] := by decide

theorem witness_AluInstructionsHaveNoOtherEffect :
    (∀ i ∈ ([.add 6 0, .mul 6 0, .and 6 0, .or 6 0, .xor 6 0, .cmp 6 0, .sub 6 0, .div 6 0, .mod 6 0, .not 6] : List Instr),
      (nextOf (exec i (extReset.setReg 0 3))).map (·.status.isFaulted) = some false) ∧
    (6 : Byte).toNat ≠ 7 ∧ (0 : Byte).toNat ≠ 7 := by decide

/-- For OnlyHaltHalts and RunAgainStartsFromTheTop. -/
theorem witness_halt :
    step (place 9 [0x01] State.reset) =
      .next { place 9 [0x01] State.reset with status := .halted 9, pc := 0, ir := some 0x01 } := rfl

/-- For ConfigurationIsImmutable, HostOperationsKeepTheInvariant and LoadWritesThePrefix. -/
theorem witness_load :
    load (.ofBytes [0x01]) State.reset = .loaded { State.reset with mem := ⟨[(0, 0x01)]⟩ } := by decide

theorem witness_PushThenPopReturnsTheValue :
    State.reset.mem.wf = true ∧ State.reset.sp ≠ 0 ∧ (1 : Fin 8) ≠ 7 := by decide

/-- CALL from the last address whose return address is a byte, and a state at the end of the subroutine. -/
theorem witness_ReturnGoesBehindTheCall :
    ((State.reset.setPc 253).setReg 7 1).mem.wf = true ∧ ((State.reset.setPc 253).setReg 7 1).sp ≠ 0 ∧
    ((State.reset.setPc 253).setReg 7 1).pc < 254 ∧
    (nextOf (exec (.call 0) ((State.reset.setPc 253).setReg 7 1))).map (fun t => (t.sp, t.byte t.sp.toNat)) =
      some (0, 0xFF) := by decide

/-- A pushed byte that is an opcode, and one that is none. -/
theorem witness_PushedByteIsFetched :
    (nextOf (exec (.push (regByte 0)) (State.reset.setReg 0 0x01))).map
      (fun t => fetch { t with pc := t.sp.toNat } == .ok (0x01, .hlt)) = some true ∧
    dispatch Config.default (State.reset.reg 0) = none := by decide

/-- A return address that is RET's opcode byte, and the last one that is a byte, 0xFF, which is no opcode. -/
theorem witness_PushedByteIsFetched_by_CALL :
    (nextOf (exec (.call (regByte 0)) (State.reset.setPc 0x0F))).map
      (fun t => fetch { t with pc := t.sp.toNat } == .ok (0x11, .ret)) = some true ∧
    (0x11 : Byte).toNat = (State.reset.setPc 0x0F).pc + 2 ∧
    (0xFF : Byte).toNat = (State.reset.setPc 253).pc + 2 ∧ dispatch Config.default 0xFF = none ∧
    (nextOf (exec (.call (regByte 0)) (State.reset.setPc 253))).map (·.status.isFaulted) = some false := by decide

theorem witness_MemoryReadIsChecked :
    memRead 0 (State.reset.setByte 0 5) = .ok 5 ∧ memRead 255 (State.reset.setByte 255 6) = .ok 6 ∧
    memRead (-1) State.reset = .error (.outOfBounds (-1)) ∧ memRead 256 State.reset = .error (.outOfBounds 256) := by decide

theorem witness_MemoryWriteThenRead :
    State.reset.mem.wf = true ∧ memWrite 255 6 State.reset = .ok { State.reset with mem := ⟨[(255, 6)]⟩ } ∧
    memWrite (-1) 6 State.reset = .error (.outOfBounds (-1)) ∧ memWrite 256 6 State.reset = .error (.outOfBounds 256) := by
  decide

theorem witness_EqualMemoriesAreEqualData :
    Memory.wf ⟨[(3, 1)]⟩ = true ∧ ((Memory.empty.set 3 7).set 3 1) = ⟨[(3, 1)]⟩ := by decide

theorem witness_StepKeepsTheInvariant :
    Inv (place 0 [0x01] State.reset) ∧ (after (place 0 [0x01] State.reset)).isSome = true :=
  ⟨⟨by decide, by decide, by decide, by decide, by decide⟩, by decide⟩

theorem witness_DecodeOfEncode :
    Config.extended.wf ∧ Config.extended.has (Instr.mnemonic (.sub 0xFF 0)) = true := by decide

/-- PC where three bytes just fit, and where they do not. -/
theorem witness_PlacedWordIsRun :
    State.reset.mem.wf = true ∧ State.reset.cfg.opcodes = defaultOpcodes ∧ decodeTableWord 24 0x0201A1 = some (.sub 1 2) ∧
    ((State.reset.setPc 253).withFetchWord 24 0x0201A1).pc = 253 ∧
    ((State.reset.setPc 254).withFetchWord 24 0x0201A1).pc = 0 := by decide

/-- Not faulted, Running, and not Running. -/
theorem witness_HostRunAndStepExecuteSteps :
    State.reset.status.isFaulted = false ∧ (place 0 [0x01] State.reset).status = .running ∧
    State.reset.status ≠ .running := by decide

theorem witness_LoadWritesThePrefix :
    State.reset.status = .idle ∧ (State.reset.setStatus (.halted 0)).status = .halted 0 ∧
    (List.replicate 256 (7 : Byte)).length ≤ 256 :=
  ⟨rfl, rfl, List.length_replicate.le⟩

theorem witness_LoadChecksBeforeItWrites :
    (Token.int 255).byte? = some 255 ∧ (Token.int 0).byte? = some 0 ∧ (Token.int 256).byte? = none ∧
    (Token.int (-1)).byte? = none ∧ Token.notInteger.byte? = none := by decide

/-- An image of 257 valid bytes. -/
theorem witness_LoadChecksBeforeItWrites_length :
    256 < (List.replicate 257 (Token.int 0)).length ∧
    ∀ y ∈ List.replicate 257 (Token.int 0), y.byte?.isSome = true :=
  ⟨by rw [List.length_replicate]; omega, fun y hy => by rw [List.eq_of_mem_replicate hy]; rfl⟩

end Sys2Proof.Tests
end

namespace Sys2Proof.Machine

/-! ## FL: the one instruction that writes it, the two that read it (10_state.md R25, R26)

FL is independent of everything else where writing it before an instruction is the same as writing it afterwards. That
is stated once for every instruction but CMP, as `exec_setFl`. -/

section FlagIndependence

variable {s t : State}

@[simp] theorem State.setFl_spBelow (s : State) (v : Byte) : (s.setFl v).spBelow = s.spBelow := rfl

@[simp] theorem State.setFl_spAbove (s : State) (v : Byte) : (s.setFl v).spAbove = s.spAbove := rfl

theorem State.setReg_setFl (s : State) (r : Fin 8) (w v : Byte) :
    (s.setFl v).setReg r w = (s.setReg r w).setFl v := rfl

theorem State.setByte_setFl (s : State) (a : Nat) (w v : Byte) :
    (s.setFl v).setByte a w = (s.setByte a w).setFl v := rfl

theorem State.setPc_setFl (s : State) (n : Nat) (v : Byte) : (s.setFl v).setPc n = (s.setPc n).setFl v := rfl

theorem spSet_setFl (z : Int) (s : State) (v : Byte) : spSet z (s.setFl v) = (State.setFl · v) <$> spSet z s := by
  unfold spSet
  split <;> rfl

/-- A handler whose computation does not depend on FL, and passes it on, can have FL written afterwards. -/
theorem commit_setFl {x y : Except ErrorKind State} (v : Byte) (h : commit s x = .next t)
    (hxy : y = (State.setFl · v) <$> x) : commit (s.setFl v) y = .next (t.setFl v) := by
  subst hxy
  cases x with
  | ok u => cases h; rfl
  | error k => cases h; rfl

theorem aluTwoRegisters_setFl (op : AluOp) (ra rb : Byte) (s : State) (v : Byte) :
    aluTwoRegisters op ra rb (s.setFl v) = (State.setFl · v) <$> aluTwoRegisters op ra rb s := by
  simp only [aluTwoRegisters, map_bind]; rfl

theorem jumpIf_setFl (taken : Bool) (ra : Byte) (s : State) (v : Byte) :
    jumpIf taken ra (s.setFl v) = (State.setFl · v) <$> jumpIf taken ra s := by
  simp only [jumpIf, map_bind]; rfl

/-- Every instruction but CMP: a value of FL written before it, which JEQ and JNE cannot tell from the old one by bit E,
could as well be written after it. -/
theorem exec_setFl {i : Instr} (v : Byte) (hcmp : ∀ a b, i ≠ .cmp a b)
    (hread : (∀ a, i ≠ .jeq a ∧ i ≠ .jne a) ∨ (s.setFl v).flagEqual = s.flagEqual) (h : exec i s = .next t) :
    exec i (s.setFl v) = .next (t.setFl v) := by
  cases i with
  | hlt => cases h; rfl
  | ldi | prn | not | jmp => exact commit_setFl v h (by simp only [map_bind]; rfl)
  | add | mul | and | or | xor | sub | div | mod => exact commit_setFl v h (aluTwoRegisters_setFl ..)
  | push | pop | call =>
    exact commit_setFl v h (by simp [State.setReg_setFl, State.setPc_setFl, State.setByte_setFl, spSet_setFl])
  | ret =>
    simp only [exec, execRet] at h ⊢
    exact commit_setFl v h (by simp [State.setPc_setFl, spSet_setFl])
  | cmp a b => exact absurd rfl (hcmp a b)
  | jeq a | jne a =>
    have he : (s.setFl v).flagEqual = s.flagEqual := hread.resolve_left fun hne => by simpa using hne a
    exact commit_setFl v h (by rw [he]; exact jumpIf_setFl ..)

/-- CMP takes nothing from the old FL: it raises the same error as before, or answers the same state. -/
theorem execCmp_setFl {ra rb : Byte} (v : Byte) (h : execCmp ra rb s = .next t) :
    (Raised s t ∧ execCmp ra rb (s.setFl v) = .next (t.setFl v)) ∨ execCmp ra rb (s.setFl v) = .next t := by
  cases hra : checkReg ra with
  | error k =>
    simp only [execCmp, hra, error_bind, commit_error] at h ⊢
    cases h; exact .inl ⟨⟨k, rfl⟩, rfl⟩
  | ok a =>
    cases hrb : checkReg rb with
    | error k =>
      simp only [execCmp, hra, hrb, ok_bind, error_bind, commit_error] at h ⊢
      cases h; exact .inl ⟨⟨k, rfl⟩, rfl⟩
    | ok b =>
      simp only [execCmp, hra, hrb, ok_bind, alu_cmp, commit_ok] at h ⊢
      cases h; exact .inr rfl

/-- An instruction that is not CMP keeps FL: writing its old value before the instruction changes nothing, and so writing
it afterwards changes nothing either. -/
theorem exec_fl_of_ne_cmp {i : Instr} (hcmp : ∀ a b, i ≠ .cmp a b) (h : exec i s = .next t) : t.fl = s.fl := by
  have ht : exec i s = .next (t.setFl s.fl) := exec_setFl s.fl hcmp (.inr rfl) h
  have hinj : t = t.setFl s.fl := Host.Outcome.next.inj (h.symm.trans ht)
  rw [hinj, State.setFl_fl]

end FlagIndependence

/-- A comparison's flags byte is one of the powers 2^0, 2^1, 2^2. -/
theorem compareFlags_eq_twoPow (a b : Byte) : ∃ k < 3, compareFlags a b = BitVec.twoPow 8 k := by
  unfold compareFlags
  split
  · exact ⟨2, by decide, rfl⟩
  · split
    · exact ⟨1, by decide, rfl⟩
    · exact ⟨0, by decide, rfl⟩

theorem execCmp_regByte (ra rb : Fin 8) (s : State) :
    execCmp (regByte ra) (regByte rb) s =
      .next ((s.setFl (compareFlags (s.reg ra) (s.reg rb))).setPc (s.pc + 3)) := by
  simp [execCmp]

/-- Settles O36: FL can be written after every instruction but CMP, and CMP's flags byte is a power of two. -/
theorem flagsAreSetExclusivelyByCompare : Obligations.FlagsAreSetExclusivelyByCompare := by
  refine ⟨fun i s t h hfl => ?_, fun s ra rb => ?_⟩
  · by_contra hcmp
    push Not at hcmp
    exact hfl (exec_fl_of_ne_cmp hcmp h)
  · obtain ⟨k, hk, hflags⟩ := compareFlags_eq_twoPow (s.reg ra) (s.reg rb)
    refine ⟨_, k, execCmp_regByte ra rb s, hk, fun j => ?_⟩
    have hk8 : k < 8 := by omega
    simp [hflags, BitVec.getLsbD_twoPow, hk8, eq_comm]

/-- Settles O37: the other value of FL is found after the instruction, or CMP has replaced it. -/
theorem flagsAreReadOnlyByEqualityJumps : Obligations.FlagsAreReadOnlyByEqualityJumps := by
  intro i s t v h hread
  by_cases hcmp : ∃ a b, i = .cmp a b
  · obtain ⟨a, b, rfl⟩ := hcmp
    rcases execCmp_setFl v h with ⟨⟨k, rfl⟩, hu⟩ | hu
    · exact ⟨_, hu, rfl, fun hok => by simp [Status.isFaulted] at hok⟩
    · exact ⟨t, hu, rfl, fun _ _ => rfl⟩
  · have hne : ∀ a b, i ≠ .cmp a b := fun a b hi => hcmp ⟨a, b, hi⟩
    exact ⟨t.setFl v, exec_setFl v hne hread h, rfl, fun _ hc => absurd hc hcmp⟩

/-- Settles O1, by the reset table and HLT's one effect on PC. -/
theorem pcIsZeroAtResetAndAfterHalt : Obligations.PcIsZeroAtResetAndAfterHalt := by
  refine ⟨rfl, fun _ => rfl, fun s => ?_⟩
  have hhlt : exec .hlt s = .next ((s.setStatus (.halted s.pc)).setPc 0) := rfl
  exact ⟨_, hhlt, State.setPc_pc _ 0⟩

end Sys2Proof.Machine

namespace Sys2Proof.Machine

/-! ## MemRead at an integer address (20_memory.md R38)

The address checker decides alone: what it accepts is read, and its error is the read's. -/

theorem memRead_of_mem {a : Int} (h : 0 ≤ a ∧ a < 256) (s : State) : memRead a s = .ok (s.byte a.toNat) := by
  rw [memRead, checkAddr_of_mem h]

theorem memRead_of_not_mem {a : Int} (h : ¬(0 ≤ a ∧ a < 256)) (s : State) : memRead a s = .error (.outOfBounds a) := by
  rw [memRead, checkAddr_of_not_mem h]

/-- Settles O45, by the address checker's two answers. -/
theorem memoryReadIsChecked : Obligations.MemoryReadIsChecked :=
  fun _ s => ⟨fun h => memRead_of_mem h s, fun h => memRead_of_not_mem h s⟩

end Sys2Proof.Machine

namespace Sys2Proof.Machine

/-! ## CMP's flags byte, one equation for each order of the operands (42_alu.md R94) -/

theorem compareFlags_self (a : Byte) : compareFlags a a = flagE := by
  simp [compareFlags]

theorem compareFlags_of_lt {a b : Byte} (h : a.toNat < b.toNat) : compareFlags a b = flagL := if_pos h

theorem compareFlags_of_gt {a b : Byte} (h : b.toNat < a.toNat) : compareFlags a b = flagG := by
  rw [compareFlags, if_neg h.not_gt, if_pos h]

theorem exec_cmp_of_compareFlags_eq {s : State} {ra rb : Fin 8} {fl : Byte}
    (h : compareFlags (s.reg ra) (s.reg rb) = fl) :
    exec (.cmp (regByte ra) (regByte rb)) s = .next { s with fl := fl, pc := s.pc + 3 } := by
  subst h
  exact execCmp_regByte ra rb s

/-- Settles O9: CMP commits the flags byte of the comparison, which each of the three orders fixes. -/
theorem compareResult : Obligations.CompareResult := by
  refine fun s ra rb => ⟨fun heq => ?_, fun hgt => ?_, fun hlt => ?_⟩
  · exact exec_cmp_of_compareFlags_eq (heq ▸ compareFlags_self _)
  · exact exec_cmp_of_compareFlags_eq (compareFlags_of_gt hgt)
  · exact exec_cmp_of_compareFlags_eq (compareFlags_of_lt hlt)

end Sys2Proof.Machine

namespace Sys2Proof.Machine

/-! ## Errors of the fetch (40_cycle.md R69, R74; 60_exceptions.md R114) -/

/-- The opcode byte is looked up before any operand byte is read, so where it has no entry the rest of memory plays no
part. -/
theorem fetch_of_dispatch_eq_none {s : State} (hpc : s.pc < 256) (hd : dispatch s.cfg (s.byte s.pc) = none) :
    fetch s = .error (.invalidOpcode (s.byte s.pc)) := by
  simp only [fetch, memRead_nat, if_pos hpc, ok_bind, hd]

/-- A running machine takes the fetch's error in the state before the step. -/
theorem step_of_fetch_eq_error {s : State} {k : ErrorKind} (hrun : s.status = .running) (hf : fetch s = .error k) :
    step s = .next (s.setStatus (.faulted { kind := k, pc := some s.pc })) := by
  simp only [step, hrun, hf, raise_eq]

/-- Settles O29: the dispatch fails in the fetch, and taking its error sets the status alone. -/
theorem unknownOpcodeRaisesInvalidOpcode : Obligations.UnknownOpcodeRaisesInvalidOpcode := by
  intro s hrun hpc hd
  have hstep := step_of_fetch_eq_error hrun (fetch_of_dispatch_eq_none hpc hd)
  exact ⟨_, hstep, rfl, rfl, rfl⟩

end Sys2Proof.Machine

namespace Sys2Proof.Machine

/-! ## `load` on a machine outside a run (70_reset_and_hazards.md R132)

An image of bytes passes the element check and is given back by it unchanged, so `load` is `Memory.setAll` from address 0
on. -/

@[simp] theorem narrowInt_natCast_toNat (b : Byte) : narrowInt b.toNat = b := by
  rw [narrowInt, BitVec.ofInt_natCast, BitVec.ofNat_toNat, BitVec.setWidth_eq]

@[simp] theorem Token.byte?_int_toNat (b : Byte) : (Token.int b.toNat).byte? = some b := by
  have hb : (0 : Int) ≤ b.toNat ∧ (b.toNat : Int) < 256 := by omega
  rw [Token.byte?, if_pos hb, narrowInt_natCast_toNat]

/-- The element check passes exactly the images all of whose elements are bytes. -/
theorem firstBad_eq_none_iff (k : Nat) (ts : List Token) :
    firstBad k ts = none ↔ ∀ y ∈ ts, y.byte?.isSome = true := by
  induction ts generalizing k with
  | nil => simp [firstBad]
  | cons x r ih => cases hx : x.byte? <;> simp [firstBad, hx, ih]

theorem loadImage_ofBytes {bs : List Byte} (h : bs.length ≤ 256) (s : State) :
    loadImage (.ofBytes bs) s = .loaded { s with mem := s.mem.setAll 0 bs } := by
  have hcheck : firstBad 0 (bs.map fun b => Token.int b.toNat) = none := by simp [firstBad_eq_none_iff]
  have hbytes : (bs.map fun b => Token.int b.toNat).filterMap Token.byte? = bs := by
    simp [List.filterMap_map]
  have hfits : ¬ memSize < (bs.map fun b => Token.int b.toNat).length := by simpa [memSize] using h
  simp only [loadImage, Image.ofBytes, hcheck, if_neg hfits, hbytes]

/-- `load` is accepted when the status is Idle or Halted (70_reset_and_hazards.md R134). -/
theorem load_of_idle_or_halted {s : State} (h : s.status = .idle ∨ ∃ p, s.status = .halted p) (img : Image) :
    load img s = loadImage img s := by
  rcases h with h | ⟨p, h⟩ <;> simp only [load, h]

/-- Settles O56: `load` writes the bytes with `Memory.setAll`, whose reads inside and outside the image are known. -/
theorem loadWritesThePrefix : Obligations.LoadWritesThePrefix := by
  intro s bs hwf hstatus hlen
  have hfits : 0 + bs.length ≤ memSize := by rwa [Nat.zero_add]
  refine ⟨_, (load_of_idle_or_halted hstatus _).trans (loadImage_ofBytes hlen s), fun i hi => ?_, fun j hj => ?_, rfl⟩
  · have hget := Memory.setAll_get_inside hwf hfits hi
    rwa [Nat.zero_add] at hget
  · exact Memory.setAll_get_outside s.mem 0 bs (.inr (by omega))

end Sys2Proof.Machine

namespace Sys2Proof.Machine

/-! ## What a halting step leaves, and the run after it (41_halt_load_print.md R80; 70_reset_and_hazards.md R136) -/

section Halting

variable {s t : State} {i : Instr}

/-- An instruction that is not HLT keeps the status, unless it raises an error. -/
theorem exec_status_of_ne_hlt (hi : i ≠ .hlt) (h : exec i s = .next t) : Raised s t ∨ t.status = s.status := by
  cases i with
  | hlt => exact absurd rfl hi
  | ldi => exact (execLdi_cases h).imp_right (by rintro ⟨_, _, rfl⟩; rfl)
  | prn => exact (execPrn_cases h).imp_right (by rintro ⟨_, _, rfl⟩; rfl)
  | add | mul | and | or | xor | sub | div | mod =>
    exact (aluTwoRegisters_cases h).imp_right (by rintro ⟨_, _, _, _, _, _, rfl⟩; rfl)
  | cmp => exact (execCmp_cases h).imp_right (by rintro ⟨_, _, _, _, rfl⟩; rfl)
  | not => exact (execNot_cases h).imp_right (by rintro ⟨_, _, _, rfl⟩; rfl)
  | push => exact (execPush_cases h).imp_right (by rintro ⟨_, _, _, rfl⟩; rfl)
  | pop => exact (execPop_cases h).imp_right (by rintro ⟨_, _, _, rfl⟩; rfl)
  | call => exact (execCall_cases h).imp_right (by rintro ⟨_, _, _, _, rfl⟩; rfl)
  | ret => exact (execRet_cases h).imp_right (by rintro ⟨_, rfl⟩; rfl)
  | jmp => exact (execJmp_cases h).imp_right (by rintro ⟨_, _, rfl⟩; rfl)
  | jeq | jne => exact (jumpIf_cases h).imp_right (by rintro ⟨_, _, rfl⟩; rfl)

/-- On a running machine only HLT answers Halted. -/
theorem eq_hlt_of_exec_halted {p : Nat} (hrun : s.status = .running) (h : exec i s = .next t)
    (ht : t.status = .halted p) : i = .hlt := by
  by_contra hi
  rcases exec_status_of_ne_hlt hi h with ⟨k, rfl⟩ | hstatus
  · cases ht
  · rw [hstatus, hrun] at ht; cases ht

/-- A step that halts fetched a HLT, and answers what HLT does, with the opcode byte in IR. -/
theorem step_halted {p : Nat} (h : step s = .next t) (ht : t.status = .halted p) :
    ∃ op, fetch s = .ok (op, .hlt) ∧ t = ((s.setStatus (.halted s.pc)).setPc 0).setIr op := by
  obtain ⟨hrun, ⟨k, -, rfl⟩ | ⟨op, i, u, hf, hu, rfl⟩⟩ := step_cases h
  · cases ht
  · have hustatus : u.status = .halted p := by split at ht <;> exact ht
    obtain rfl := eq_hlt_of_exec_halted hrun hu hustatus
    cases execHlt_cases hu
    exact ⟨op, hf, rfl⟩

end Halting

theorem hostRun_of_not_faulted {s : State} (h : s.status.isFaulted = false) (n : Nat) :
    hostRun n s = runLoop n s.setRunning := by
  simp only [hostRun, h, Bool.false_eq_true, if_false]

/-- Settles O58: the step that halted ran HLT, which sets PC to 0, and a halted machine is not faulted. -/
theorem runAgainStartsFromTheTop : Obligations.RunAgainStartsFromTheTop := by
  intro s t p h ht
  obtain ⟨op, -, rfl⟩ := step_halted h ht
  exact ⟨rfl, hostRun_of_not_faulted rfl⟩

end Sys2Proof.Machine

namespace Sys2Proof.Machine

/-! ## The invariant (10_state.md; 40_cycle.md R78)

Each update of the state keeps `Inv` under its own side condition, so an instruction keeps it by the updates it makes. -/

namespace Inv

variable {s t : State}

theorem construct {c : Config} (hc : c.wf) : Inv (State.construct c) where
  memory := rfl
  pcRange := Nat.zero_le _
  flags := rfl
  opcodes := hc
  status := rfl

theorem setReg (h : Inv s) (r : Fin 8) (v : Byte) : Inv (s.setReg r v) :=
  ⟨h.memory, h.pcRange, h.flags, h.opcodes, h.status⟩

theorem emit (h : Inv s) (v : Byte) : Inv (s.emit v) := ⟨h.memory, h.pcRange, h.flags, h.opcodes, h.status⟩

theorem setIr (h : Inv s) (v : Byte) : Inv (s.setIr v) := ⟨h.memory, h.pcRange, h.flags, h.opcodes, h.status⟩

theorem setFl (h : Inv s) {v : Byte} (hv : flagsLegal v = true) : Inv (s.setFl v) :=
  ⟨h.memory, h.pcRange, hv, h.opcodes, h.status⟩

theorem setByte (h : Inv s) {a : Nat} (ha : a < memSize) (v : Byte) : Inv (s.setByte a v) :=
  ⟨Memory.set_wf h.memory v ha, h.pcRange, h.flags, h.opcodes, h.status⟩

theorem setAll (h : Inv s) {vs : List Byte} (hvs : vs.length ≤ memSize) :
    Inv { s with mem := s.mem.setAll 0 vs } :=
  ⟨Memory.setAll_wf h.memory (by rwa [Nat.zero_add]), h.pcRange, h.flags, h.opcodes, h.status⟩

theorem setRunning (h : Inv s) : Inv s.setRunning := ⟨h.memory, h.pcRange, h.flags, h.opcodes, rfl⟩

/-- A running machine may have PC anywhere in its range. -/
theorem setPc (h : Inv s) (hrun : s.status = .running) {n : Nat} (hn : n ≤ memSize) : Inv (s.setPc n) where
  memory := h.memory
  pcRange := hn
  flags := h.flags
  opcodes := h.opcodes
  status := by simp [statusLegal, hrun]

/-- A jump target is a register's byte. -/
theorem setPc_byte (h : Inv s) (hrun : s.status = .running) (v : Byte) : Inv (s.setPc v.toNat) :=
  h.setPc hrun v.isLt.le

theorem halt (h : Inv s) (hpc : s.pc < memSize) : Inv ((s.setStatus (.halted s.pc)).setPc 0) where
  memory := h.memory
  pcRange := Nat.zero_le _
  flags := h.flags
  opcodes := h.opcodes
  status := by simp [statusLegal, hpc]

/-- Taking an error keeps PC, which the record names. -/
theorem raised (h : Inv s) (ht : Raised s t) : Inv t := by
  obtain ⟨k, rfl⟩ := ht
  exact ⟨h.memory, h.pcRange, h.flags, h.opcodes, by simp [statusLegal]⟩

end Inv

/-- An instruction whose bytes lie inside memory keeps a legal state legal. -/
theorem exec_inv {i : Instr} {s t : State} (hs : Inv s) (hrun : s.status = .running)
    (hpc : s.pc + i.mnemonic.format.operandCount < memSize) (h : exec i s = .next t) : Inv t := by
  cases i with
  | hlt => exact execHlt_cases h ▸ hs.halt hpc
  | ldi => exact (execLdi_cases h).elim hs.raised fun ⟨_, _, ht⟩ => ht ▸ (hs.setReg _ _).setPc hrun hpc
  | prn => exact (execPrn_cases h).elim hs.raised fun ⟨_, _, ht⟩ => ht ▸ (hs.emit _).setPc hrun hpc
  | add | mul | and | or | xor | sub | div | mod =>
    exact (aluTwoRegisters_cases h).elim hs.raised fun ⟨_, _, _, _, _, _, ht⟩ => ht ▸ (hs.setReg _ _).setPc hrun hpc
  | not => exact (execNot_cases h).elim hs.raised fun ⟨_, _, _, ht⟩ => ht ▸ (hs.setReg _ _).setPc hrun hpc
  | cmp =>
    exact (execCmp_cases h).elim hs.raised fun ⟨_, _, _, _, ht⟩ =>
      ht ▸ (hs.setFl (compareFlags_legal _ _)).setPc hrun hpc
  | push =>
    exact (execPush_cases h).elim hs.raised fun ⟨_, _, _, ht⟩ =>
      ht ▸ ((hs.setReg _ _).setByte (BitVec.isLt _) _).setPc hrun hpc
  | pop =>
    exact (execPop_cases h).elim hs.raised fun ⟨_, _, _, ht⟩ =>
      ht ▸ ((hs.setReg _ _).setReg _ _).setPc hrun hpc
  | call =>
    exact (execCall_cases h).elim hs.raised fun ⟨_, _, _, _, ht⟩ =>
      ht ▸ ((hs.setReg _ _).setByte (BitVec.isLt _) _).setPc_byte hrun _
  | ret => exact (execRet_cases h).elim hs.raised fun ⟨_, ht⟩ => ht ▸ (hs.setReg _ _).setPc_byte hrun _
  | jmp => exact (execJmp_cases h).elim hs.raised fun ⟨_, _, ht⟩ => ht ▸ hs.setPc_byte hrun _
  | jeq | jne =>
    refine (jumpIf_cases h).elim hs.raised fun ⟨a, _, ht⟩ => ht ▸ ?_
    split
    · exact hs.setPc_byte hrun _
    · exact hs.setPc hrun hpc

theorem step_inv {s t : State} (hs : Inv s) (h : step s = .next t) : Inv t := by
  obtain ⟨hrun, ⟨k, -, ht⟩ | ⟨op, i, u, hf, hu, rfl⟩⟩ := step_cases h
  · exact hs.raised ⟨k, ht⟩
  · obtain ⟨-, -, hpc⟩ := fetch_eq_ok hf
    have hui : Inv u := exec_inv hs hrun hpc hu
    split
    · exact hui
    · exact hui.setIr op

/-- What every step and the start of a run keep, `run` keeps. -/
theorem hostRun_keeps {P : State → Prop} (hstart : ∀ s, P s → P s.setRunning)
    (hstep : ∀ s t, P s → step s = .next t → P t) {s : State} (h : P s) (n : Nat) : P (hostRun n s) := by
  unfold hostRun
  split
  · exact h
  · exact runLoop_keeps hstep n (hstart s h)

/-- The host's `step` is a run of at most one step. -/
theorem hostStep_eq_hostRun (s : State) : hostStep s = hostRun 1 s := rfl

/-- What `load` answers when it is accepted: an image that fits, written from address 0 on. -/
theorem load_eq_loaded {img : Image} {s t : State} (h : load img s = .loaded t) :
    ∃ bs : List Byte, bs.length ≤ memSize ∧ t = { s with mem := s.mem.setAll 0 bs } := by
  have himg : loadImage img s = .loaded t := by
    unfold load at h
    split at h
    · cases h
    · cases h
    · exact h
    · exact h
  cases img with
  | unreadable => cases himg
  | tokens ts =>
    simp only [loadImage] at himg
    split at himg
    · cases himg
    · split at himg
      · cases himg
      · rename_i hlen
        cases himg
        exact ⟨_, (List.length_filterMap_le _ _).trans (not_lt.mp hlen), rfl⟩

/-- Settles O49: a step takes an error or runs an instruction whose bytes lie inside memory, and both keep `Inv`. -/
theorem stepKeepsTheInvariant : Obligations.StepKeepsTheInvariant := fun _ _ => step_inv

/-- Settles O50: a run keeps what its start and each step keep, and `load` writes an image that fits. -/
theorem hostOperationsKeepTheInvariant : Obligations.HostOperationsKeepTheInvariant := by
  intro s hs
  have hrun : ∀ n, Inv (hostRun n s) := hostRun_keeps (fun _ h => h.setRunning) (fun _ _ => step_inv) hs
  refine ⟨hrun, hostStep_eq_hostRun s ▸ hrun 1, fun img t h => ?_⟩
  obtain ⟨bs, hbs, rfl⟩ := load_eq_loaded h
  exact hs.setAll hbs

/-- Settles O48: construction leaves memory and FL blank, PC at 0 and the status Idle. -/
theorem resetIsLegal : Obligations.ResetIsLegal := ⟨Inv.construct (by decide), fun _ => Inv.construct⟩

end Sys2Proof.Machine

namespace Sys2Proof

/-! ## Encoding and decoding (30_encoding.md)

Both directions of the round trip are about a row `m`, two operand bytes and the configuration's opcode for `m`: the
decoder gives `m.build a b` exactly for the opcode followed by the operand bytes the row has. -/

variable {c : Config} {op : Byte} {m : Mnemonic}

/-- A byte selects a row exactly when the configuration has the row under that byte. -/
theorem dispatch_eq_some_iff (hc : c.wf) : dispatch c op = some m ↔ c.has m = true ∧ c.opcodes.opcodeOf m = op := by
  refine ⟨dispatch_eq_some, fun ⟨hm, hop⟩ => ?_⟩
  rw [← hop]
  exact dispatch_opcodeOf hc hm

theorem decode_of_dispatch (h : dispatch c op = some m) (a b : Byte) (rest : List Byte) :
    decode c (op :: ([a, b].take m.format.operandCount ++ rest)) = .ok (m.build a b, rest) := by
  simp only [decode, h]
  cases m <;> rfl

/-- Bytes that decode are a row's opcode byte, the operand bytes the row has, and the rest. -/
theorem decode_eq_ok {i : Instr} {bytes rest : List Byte} (h : decode c bytes = .ok (i, rest)) :
    ∃ op m a b, dispatch c op = some m ∧ bytes = op :: ([a, b].take m.format.operandCount ++ rest) ∧ i = m.build a b := by
  cases bytes with
  | nil => cases h
  | cons op tl =>
    cases hd : dispatch c op with
    | none => simp [decode, hd] at h
    | some m =>
      simp only [decode, hd] at h
      split at h
      case h_1 hf => cases h; exact ⟨op, m, 0, 0, hd, by simp [hf, Format.operandCount], rfl⟩
      case h_2 a _ hf => cases h; exact ⟨op, m, a, 0, hd, by simp [hf, Format.operandCount], rfl⟩
      case h_4 a b _ hf | h_7 a b _ hf => cases h; exact ⟨op, m, a, b, hd, by simp [hf, Format.operandCount], rfl⟩
      all_goals cases h

/-- The decoder uses of the configuration only what the dispatch table gives the opcode byte. -/
theorem decode_cons_congr {c' : Config} (h : dispatch c op = dispatch c' op) (rest : List Byte) :
    decode c (op :: rest) = decode c' (op :: rest) := by
  simp only [decode, h]

/-- Settles O51: an instruction is its row's with its own operand bytes, and its row is found under its opcode byte. -/
theorem decodeOfEncode : Obligations.DecodeOfEncode := by
  intro c i rest hc hi
  rw [← i.build_operands, encode_build, List.cons_append]
  exact decode_of_dispatch (dispatch_opcodeOf hc hi) _ _ rest

/-- Settles O52: the bytes decoded are a row's opcode and operand bytes, which are the row's encoding. -/
theorem encodeOfDecode : Obligations.EncodeOfDecode := by
  intro c i bytes rest h
  obtain ⟨op, m, a, b, hd, rfl, rfl⟩ := decode_eq_ok h
  obtain ⟨hhas, rfl⟩ := dispatch_eq_some hd
  exact ⟨by rw [encode_build, List.cons_append], by rwa [Mnemonic.build_mnemonic]⟩

/-- Settles O53, by running the decoder. -/
theorem sampleWordsDecode : Obligations.SampleWordsDecode := by
  unfold Obligations.SampleWordsDecode
  decide

/-- Settles O54: a byte selects the rows the configuration has under it, row by row. -/
theorem dispatchTableIsTheOpcodeMap : Obligations.DispatchTableIsTheOpcodeMap := by
  intro op m
  rw [dispatch_eq_some_iff (by decide), dispatch_eq_some_iff (by decide)]
  cases m <;> simp [Config.has, Config.default, Config.extended, Mnemonic.needsExtAlu, OpcodeTable.opcodeOf,
    defaultOpcodes, eq_comm]

end Sys2Proof

namespace Sys2Proof.Machine

/-! ## Fetch, and the step as `exec` of what is fetched (40_cycle.md R66 to R70) -/

section FetchAndStep

variable {s t : State} {i : Instr} {m : Mnemonic}

/-- A row's instruction depends on the operand bytes the row has, and on no other. -/
theorem build_congr {a b a' b' : Byte} (ha : 0 < m.format.operandCount → a = a')
    (hb : m.format.operandCount = 2 → b = b') : m.build a b = m.build a' b' := by
  cases m with
  | HLT | RET => rfl
  | PRN | PUSH | POP | CALL | JMP | JEQ | JNE | NOT => obtain rfl := ha (by decide); rfl
  | LDI | ADD | MUL | AND | OR | XOR | CMP | SUB | DIV | MOD =>
    obtain rfl := ha (by decide)
    obtain rfl := hb rfl
    rfl

theorem fetch_of_operands_inside (hd : dispatch s.cfg (s.byte s.pc) = some m)
    (h : s.pc + m.format.operandCount < 256) :
    fetch s = .ok (s.byte s.pc, m.build (s.byte (s.pc + 1)) (s.byte (s.pc + 2))) := by
  have hpc : s.pc < 256 := by omega
  simp only [fetch, memRead_nat, if_pos hpc, ok_bind, hd]
  rw [fetchOperands_ok (by omega), ok_bind]
  congr 2
  exact build_congr (fun h1 => by simp [List.getD, List.getElem?_range h1]) (fun h2 => by simp [List.getD, h2])

/-- An operand fetch that passes the end of memory fails at address 256. -/
theorem fetchOperands_of_outside {a n : Nat} (ha : a ≤ 256) (h : 256 < a + n) :
    fetchOperands s a n = .error (.outOfBounds 256) := by
  induction n generalizing a with
  | zero => omega
  | succ n ih =>
    rw [fetchOperands, memRead_nat]
    split
    · rw [ok_bind, ih (by omega) (by omega), error_bind]
    · have h256 : a = 256 := by omega
      subst h256
      rfl

theorem fetch_of_operands_outside (hpc : s.pc < 256) (hd : dispatch s.cfg (s.byte s.pc) = some m)
    (h : 256 ≤ s.pc + m.format.operandCount) : fetch s = .error (.outOfBounds 256) := by
  simp only [fetch, memRead_nat, if_pos hpc, ok_bind, hd]
  rw [fetchOperands_of_outside (by omega) (by omega), error_bind]

theorem fetch_of_pc_outside (hpc : 256 ≤ s.pc) : fetch s = .error (.outOfBounds s.pc) := by
  rw [fetch, memRead_nat, if_neg (by omega), error_bind]

/-- The decoder is shown the bytes from PC on, three of them or as many as memory has. -/
theorem bytesAtPc_eq_map_range (s : State) :
    s.bytesAtPc = (List.range (min 3 (256 - s.pc))).map fun k => s.byte (s.pc + k) := by
  have hcases : 3 ≤ 256 - s.pc ∨ s.pc = 254 ∨ s.pc = 255 ∨ 256 ≤ s.pc := by omega
  rcases hcases with h | h | h | h
  · have h0 : s.pc < 256 := by omega
    have h1 : s.pc + 1 < 256 := by omega
    have h2 : s.pc + 2 < 256 := by omega
    rw [min_eq_left h]
    simp [State.bytesAtPc, memSize, h0, h1, h2, List.range_succ]
  · simp [State.bytesAtPc, memSize, h, List.range_succ]
  · simp [State.bytesAtPc, memSize, h, List.range_succ]
  · have h0 : 256 - s.pc = 0 := by omega
    have h1 : ∀ k, ¬ s.pc + k < 256 := by omega
    simp [State.bytesAtPc, memSize, h0, h1, Nat.not_lt.mpr h]

/-- What the decoder is shown is memory's, and none of it lies outside memory. -/
theorem bytesAtPc_getElem? {k : Nat} {v : Byte} (h : s.bytesAtPc[k]? = some v) :
    s.pc + k < 256 ∧ v = s.byte (s.pc + k) := by
  rw [bytesAtPc_eq_map_range] at h
  obtain ⟨hk, rfl⟩ := List.getElem?_eq_some_iff.mp h
  simp only [List.length_map, List.length_range] at hk
  exact ⟨by omega, by simp⟩

/-- What the decoder reads at PC is what the fetch answers. -/
theorem fetch_of_decode {rest : List Byte} (h : decode s.cfg s.bytesAtPc = .ok (i, rest)) :
    fetch s = .ok (s.byte s.pc, i) := by
  obtain ⟨op, m, a, b, hd, hbytes, rfl⟩ := decode_eq_ok h
  obtain ⟨hpc, rfl⟩ := bytesAtPc_getElem? (s := s) (k := 0) (v := op) (by rw [hbytes]; rfl)
  have ha (h1 : 0 < m.format.operandCount) : s.pc + 1 < 256 ∧ a = s.byte (s.pc + 1) :=
    bytesAtPc_getElem? (by rw [hbytes]; simp [h1])
  have hb (h2 : m.format.operandCount = 2) : s.pc + 2 < 256 ∧ b = s.byte (s.pc + 2) :=
    bytesAtPc_getElem? (by rw [hbytes]; simp [h2])
  have hn : m.format.operandCount ≤ 2 := by cases m <;> decide
  have hin : s.pc + m.format.operandCount < 256 := by omega
  rw [Nat.add_zero] at hd
  rw [fetch_of_operands_inside hd hin, build_congr (fun h1 => (ha h1).2) (fun h2 => (hb h2).2)]

/-- Every instruction answers a next state. -/
theorem exec_next (i : Instr) (s : State) : ∃ t, exec i s = .next t := by
  obtain ⟨x, hx⟩ := exec_commits i s
  rw [hx]
  exact commit_next s x

theorem step_of_fetch_eq_ok {op : Byte} (hrun : s.status = .running) (hf : fetch s = .ok (op, i)) :
    step s = latchIr op (exec i s) := by
  simp only [step, hrun, hf]

theorem step_next (hrun : s.status = .running) : ∃ t, step s = .next t := by
  cases hf : fetch s with
  | error k => exact ⟨_, step_of_fetch_eq_error hrun hf⟩
  | ok r =>
    obtain ⟨t, ht⟩ := exec_next r.2 s
    exact ⟨_, by rw [step_of_fetch_eq_ok hrun hf, ht]; rfl⟩

theorem runLoop_succ_of_step (h : step s = .next t) (n : Nat) : runLoop (n + 1) s = runLoop n t := by
  rw [runLoop, h]

/-- A machine that is not running has no step, so its run is over. -/
theorem runLoop_of_not_running (h : s.status ≠ .running) (n : Nat) : runLoop n s = s := by
  cases n with
  | zero => rfl
  | succ n =>
    rw [runLoop]
    split
    · rename_i t ht; exact absurd (step_cases ht).1 h
    · rfl
    · rfl

/-- An instruction that leaves a running machine faulted raised an error: no handler writes that status. -/
theorem raised_of_exec_faulted (hs : s.status.isFaulted = false) (h : exec i s = .next t)
    (ht : t.status.isFaulted = true) : Raised s t := by
  by_cases hi : i = .hlt
  · subst hi
    cases execHlt_cases h
    cases ht
  · rcases exec_status_of_ne_hlt hi h with hr | hstatus
    · exact hr
    · rw [hstatus, hs] at ht; cases ht

/-- A step that leaves the machine faulted raised an error: the state before it, but for the status. -/
theorem raised_of_step_faulted (h : step s = .next t) (ht : t.status.isFaulted = true) : Raised s t := by
  obtain ⟨hrun, ⟨k, -, hk⟩ | ⟨op, i, u, -, hu, rfl⟩⟩ := step_cases h
  · exact ⟨k, hk⟩
  · have hs : s.status.isFaulted = false := by rw [hrun]; rfl
    split at ht
    · rename_i hfault
      rw [if_pos hfault]
      exact raised_of_exec_faulted hs hu hfault
    · contradiction

/-- A step that raises no error ran the fetched instruction and latched its opcode byte in IR. -/
theorem step_of_not_faulted (h : step s = .next t) (ht : t.status.isFaulted = false) :
    ∃ i u, fetch s = .ok (s.byte s.pc, i) ∧ exec i s = .next u ∧ t = u.setIr (s.byte s.pc) := by
  obtain ⟨-, ⟨k, -, rfl⟩ | ⟨op, i, u, hf, hu, rfl⟩⟩ := step_cases h
  · cases ht
  · obtain ⟨rfl, -, -⟩ := fetch_eq_ok hf
    split at ht
    · rename_i hfault
      rw [hfault] at ht; cases ht
    · rename_i hok
      exact ⟨i, u, hf, hu, if_neg hok⟩

end FetchAndStep

/-- Settles O25: a faulted state after a step is `Raised`, which keeps all but the status and records PC. -/
theorem errorsAreAtomicAndPrecise : Obligations.ErrorsAreAtomicAndPrecise := by
  intro s t e h ht
  obtain ⟨k, rfl⟩ := raised_of_step_faulted h (by rw [ht]; rfl)
  cases ht
  exact ⟨rfl, rfl⟩

/-- Settles O30: the operand fetch reads the bytes behind the opcode, and fails at 256 where they pass the end. -/
theorem operandFetchReadsExactlyTheOperands : Obligations.OperandFetchReadsExactlyTheOperands := by
  refine fun s m hpc hd => ⟨fun h => ?_, fun h => ?_⟩
  · exact ⟨_, _, fetch_of_operands_inside hd h, fun _ => rfl, fun _ => rfl⟩
  · have hf := fetch_of_operands_outside hpc hd h
    exact ⟨hf, fun hrun => step_of_fetch_eq_error hrun hf⟩

/-- Settles O26: the fetch answers the decoded instruction, and IR is latched where it raised no error. -/
theorem stepRunsTheDecodedInstruction : Obligations.StepRunsTheDecodedInstruction := by
  intro s i rest hrun hdec
  obtain ⟨t, ht⟩ := exec_next i s
  have hstep := step_of_fetch_eq_ok hrun (fetch_of_decode hdec)
  rw [ht] at hstep
  exact ⟨t, ht, fun hok => by rw [hstep, latchIr, hok]; rfl, fun hfault => by rw [hstep, latchIr, if_pos hfault]⟩

/-- Settles O27, by the four statuses. -/
theorem stepExistsExactlyWhenRunning : Obligations.StepExistsExactlyWhenRunning := by
  intro s
  refine ⟨⟨fun ⟨t, ht⟩ => (step_cases ht).1, step_next⟩, fun h => ?_, fun p h => ?_, fun e h => ?_⟩
  · simp only [step, h]
  · simp only [step, h]
  · have hfault : s.status.isFaulted = true := by rw [h]; rfl
    exact ⟨by simp only [step, h], if_pos hfault, fun _ => if_pos hfault⟩

/-- Settles O28: a step that completes latched the byte at PC, and beyond memory the opcode fetch fails. -/
theorem fetchReadsTheByteAtPc : Obligations.FetchReadsTheByteAtPc := by
  refine fun s hrun => ⟨fun _ t h ht => ?_, fun hpc => ?_⟩
  · obtain ⟨i, u, -, -, rfl⟩ := step_of_not_faulted h ht
    rfl
  · exact ⟨_, _, step_of_fetch_eq_error hrun (fetch_of_pc_outside hpc), rfl, rfl⟩

/-- Settles O35: every handler is a committed computation. -/
theorem everyInstructionAnswersANextState : Obligations.EveryInstructionAnswersANextState := exec_next

/-- Settles O40: a halting step is HLT's, whose opcode byte is the one fetched at PC. -/
theorem onlyHaltHalts : Obligations.OnlyHaltHalts := by
  intro s t p h ht
  obtain ⟨op, hf, rfl⟩ := step_halted h ht
  obtain ⟨rfl, hd, -⟩ := fetch_eq_ok hf
  cases ht
  exact ⟨hd, rfl, rfl⟩

/-- Settles O60: a machine that is not faulted is set Running, and a running machine has a step. -/
theorem hostRunAndStepExecuteSteps : Obligations.HostRunAndStepExecuteSteps := by
  refine fun s => ⟨fun hs => ⟨?_, hostRun_of_not_faulted hs⟩, rfl, fun hrun => ?_, fun hrun n => ?_⟩
  · obtain ⟨t, ht⟩ := step_next s.setRunning_status
    exact ⟨t, ht, by rw [hostStep_eq_hostRun, hostRun_of_not_faulted hs, runLoop_succ_of_step ht]; rfl⟩
  · obtain ⟨t, ht⟩ := step_next hrun
    exact ⟨t, ht, fun n => runLoop_succ_of_step ht n⟩
  · exact runLoop_of_not_running hrun n

end Sys2Proof.Machine

namespace Sys2Proof.Machine

/-! ## A word placed at PC is the one the next step runs (70_reset_and_hazards.md, boot requirements; log 5) -/

/-- Switching `EXT_ALU` on where an opcode needs it gives the opcode the row it has with `EXT_ALU`. -/
theorem dispatch_configForOpcode {c : Config} {op : Byte} {m : Mnemonic} (hc : c.wf)
    (h : dispatch { c with extAlu := true } op = some m) : dispatch (configForOpcode c op) op = some m := by
  have hext : Config.wf { c with extAlu := true } := hc
  cases hd : dispatch c op with
  | none => simp [configForOpcode, hd, h]
  | some m' =>
    obtain ⟨-, hop⟩ := dispatch_eq_some hd
    have hm' : dispatch { c with extAlu := true } op = some m' := (dispatch_eq_some_iff hext).mpr ⟨rfl, hop⟩
    have hsame : configForOpcode c op = c := by simp [configForOpcode, hd]
    rw [hsame, hd, ← hm', h]

/-- The address a word is placed at leaves room for its three bytes. -/
theorem withFetchWord_pc_add_three (s : State) (nbits w : Nat) : (s.withFetchWord nbits w).pc + 3 ≤ 256 := by
  change (if s.pc + 3 ≤ 256 then s.pc else 0) + 3 ≤ 256
  by_cases h : s.pc + 3 ≤ 256
  · rwa [if_pos h]
  · rw [if_neg h]; decide

/-- The decoder is shown the placed word. -/
theorem withFetchWord_bytesAtPc {s : State} (hwf : s.mem.wf = true) (nbits w : Nat) :
    (s.withFetchWord nbits w).bytesAtPc = wordBytes nbits w := by
  have hfits := withFetchWord_pc_add_three s nbits w
  rw [bytesAtPc_eq_map_range, min_eq_left (by omega)]
  refine List.ext_getElem (by simp [wordBytes]) fun k hk hk' => ?_
  rw [List.getElem_map, List.getElem_range]
  exact Memory.setAll_get_inside hwf hfits hk'

theorem decode_of_decodeTableWord {nbits w : Nat} {i : Instr} (h : decodeTableWord nbits w = some i) :
    ∃ rest, decode Config.extended (wordBytes nbits w) = .ok (i, rest) := by
  unfold decodeTableWord at h
  split at h
  · rename_i rest hdec
    cases h
    exact ⟨rest, hdec⟩
  · cases h

/-- The word's opcode byte has, where the word is placed, the row it has in the opcode map. -/
theorem withFetchWord_dispatch {s : State} {nbits w : Nat} {m : Mnemonic} (hops : s.cfg.opcodes = defaultOpcodes)
    (h : dispatch Config.extended (narrow (w % 2 ^ nbits)) = some m) :
    dispatch (s.withFetchWord nbits w).cfg (narrow (w % 2 ^ nbits)) = some m := by
  have hc : s.cfg.wf := by rw [Config.wf, hops]; decide
  have hext : Config.mk true s.cfg.opcodes = Config.extended := by rw [hops]; rfl
  exact dispatch_configForOpcode hc (by rwa [← hext] at h)

/-- Settles O55: the decoder reads the placed word as it reads the table's, and the fetch answers what it reads. -/
theorem placedWordIsRun : Obligations.PlacedWordIsRun := by
  intro s nbits w i hwf hops hword
  obtain ⟨rest, hdec⟩ := decode_of_decodeTableWord hword
  obtain ⟨op, m, a, b, hd, hbytes, -⟩ := decode_eq_ok hdec
  obtain rfl : narrow (w % 2 ^ nbits) = op := (List.cons.inj hbytes).1
  have hplaced := withFetchWord_bytesAtPc hwf nbits w
  have hdec' : decode (s.withFetchWord nbits w).cfg (s.withFetchWord nbits w).bytesAtPc = .ok (i, rest) := by
    rw [hplaced, hbytes, decode_cons_congr ((withFetchWord_dispatch hops hd).trans hd.symm), ← hbytes, hdec]
  have hop : narrow (w % 2 ^ nbits) = (s.withFetchWord nbits w).byte (s.withFetchWord nbits w).pc :=
    (bytesAtPc_getElem? (k := 0) (by rw [hplaced]; rfl)).2
  rw [step_of_fetch_eq_ok rfl (fetch_of_decode hdec'), ← hop]
  rfl

/-! ## The errors a program can raise (42_alu.md R85; 60_exceptions.md R115, R117)

A handler of a row the configuration has either completes without setting the status Faulted, or raises an error of a
kind a program can cause. Each operation has this form, and sequencing keeps it. -/

/-- The kinds of error a program can cause. -/
inductive ErrorKind.OfProgram : ErrorKind → Prop where
  | outOfBounds (a : Int) : OfProgram (.outOfBounds a)
  | invalidRegister (b : Byte) : OfProgram (.invalidRegister b)
  | invalidOpcode (b : Byte) : OfProgram (.invalidOpcode b)
  | divideByZero : OfProgram .divideByZero

theorem ErrorKind.OfProgram.ne {k : ErrorKind} (h : k.OfProgram) :
    (∀ op, k ≠ .unsupportedAluOperation op) ∧ ∀ pos, k ≠ .loadError pos := by
  cases h <;> exact ⟨nofun, nofun⟩

/-- The computation completes with a value that has `P`, or raises an error a program can cause. -/
inductive Answers {α : Type} (P : α → Prop) : Except ErrorKind α → Prop where
  | ok {a : α} (h : P a) : Answers P (.ok a)
  | error {k : ErrorKind} (h : k.OfProgram) : Answers P (.error k)

/-- No error has ended the run. -/
def NotFaulted (s : State) : Prop := s.status.isFaulted = false

theorem Answers.bind {α β : Type} {P : α → Prop} {Q : β → Prop} {x : Except ErrorKind α} {f : α → Except ErrorKind β}
    (hx : Answers P x) (hf : ∀ a, P a → Answers Q (f a)) : Answers Q (x >>= f) := by
  cases hx with
  | ok h => exact hf _ h
  | error h => exact .error h

section ProgramErrors

variable {s : State}

theorem checkReg_answers (b : Byte) : Answers (fun _ => True) (checkReg b) := by
  unfold checkReg
  split
  · exact .ok trivial
  · exact .error (.invalidRegister b)

theorem memRead_answers (n : Nat) (s : State) : Answers (fun _ => True) (memRead n s) := by
  rw [memRead_nat]
  split
  · exact .ok trivial
  · exact .error (.outOfBounds n)

theorem spSet_answers (v : Int) (hs : NotFaulted s) : Answers NotFaulted (spSet v s) := by
  unfold spSet
  split
  · exact .error (.outOfBounds v)
  · exact .ok hs

theorem memWrite_answers (a v : Byte) (hs : NotFaulted s) : Answers NotFaulted (memWrite a.toNat v s) := by
  rw [memWrite_byte]
  exact .ok hs

theorem returnAddress_answers (p : Nat) : Answers (fun _ => True) (returnAddress p) := by
  unfold returnAddress
  split
  · exact .error (.outOfBounds _)
  · exact .ok trivial

theorem alu_answers {c : Config} {op : AluOp} (h : aluSupports c op = true) (a b : Byte) :
    Answers (fun _ => True) (alu c op a b) := by
  rw [alu, if_pos h]
  cases op with
  | div | mod =>
    simp only [aluResult]
    split
    · exact .error .divideByZero
    · exact .ok trivial
  | add | mul | and | or | xor | cmp | sub | not => exact .ok trivial

theorem aluTwoRegisters_answers {op : AluOp} (h : aluSupports s.cfg op = true) (ra rb : Byte) (hs : NotFaulted s) :
    Answers NotFaulted (aluTwoRegisters op ra rb s) :=
  (checkReg_answers ra).bind fun _ _ => (checkReg_answers rb).bind fun _ _ =>
    (alu_answers h _ _).bind fun _ _ => .ok hs

theorem fetchOperands_answers (s : State) (a n : Nat) : Answers (fun _ => True) (fetchOperands s a n) := by
  induction n generalizing a with
  | zero => exact .ok trivial
  | succ n ih => exact (memRead_answers a s).bind fun _ _ => (ih (a + 1)).bind fun _ _ => .ok trivial

theorem fetch_answers (s : State) : Answers (fun _ => True) (fetch s) := by
  refine (memRead_answers s.pc s).bind fun op _ => ?_
  split
  · exact .error (.invalidOpcode op)
  · exact (fetchOperands_answers s _ _).bind fun _ _ => .ok trivial

/-- A row the ALU may lack is one the configuration has only with `EXT_ALU`. -/
theorem extAlu_of_has {c : Config} {m : Mnemonic} (hm : m.needsExtAlu = true) (h : c.has m = true) : c.extAlu = true := by
  simpa [Config.has, hm] using h

theorem aluSupports_of_extAlu {c : Config} (h : c.extAlu = true) (op : AluOp) : aluSupports c op = true := by
  cases op <;> simp [aluSupports, h]

/-- The handler of a row the configuration has. -/
theorem exec_answers {i : Instr} (hhas : s.cfg.has i.mnemonic = true) (hs : NotFaulted s) :
    ∃ x, exec i s = commit s x ∧ Answers NotFaulted x := by
  cases i with
  | hlt =>
    refine ⟨_, rfl, .ok ?_⟩
    rfl
  | ldi | prn | jmp | jeq | jne => exact ⟨_, rfl, (checkReg_answers _).bind fun _ _ => .ok hs⟩
  | add | mul | and | or | xor => exact ⟨_, rfl, aluTwoRegisters_answers rfl _ _ hs⟩
  | sub | div | mod => exact ⟨_, rfl, aluTwoRegisters_answers (aluSupports_of_extAlu (extAlu_of_has rfl hhas) _) _ _ hs⟩
  | not =>
    exact ⟨_, rfl, (checkReg_answers _).bind fun _ _ =>
      (alu_answers (aluSupports_of_extAlu (extAlu_of_has rfl hhas) _) _ _).bind fun _ _ => .ok hs⟩
  | cmp =>
    exact ⟨_, rfl, (checkReg_answers _).bind fun _ _ => (checkReg_answers _).bind fun _ _ =>
      (alu_answers rfl _ _).bind fun _ _ => .ok hs⟩
  | push =>
    exact ⟨_, rfl, (checkReg_answers _).bind fun _ _ => (spSet_answers _ hs).bind fun _ h =>
      (memWrite_answers _ _ h).bind fun _ h => .ok h⟩
  | pop =>
    exact ⟨_, rfl, (checkReg_answers _).bind fun r _ => (memRead_answers s.sp.toNat s).bind fun v _ =>
      (spSet_answers (s := s.setReg r v) _ hs).bind fun _ h => .ok h⟩
  | call =>
    exact ⟨_, rfl, (checkReg_answers _).bind fun _ _ => (spSet_answers _ hs).bind fun _ h =>
      (returnAddress_answers _).bind fun _ _ => (memWrite_answers _ _ h).bind fun _ h => .ok h⟩
  | ret =>
    simp only [exec, execRet]
    exact ⟨_, rfl, (memRead_answers s.sp.toNat s).bind fun _ _ => (spSet_answers _ hs).bind fun _ h => .ok h⟩

/-- An error that a handler's answer records is one it raised. -/
theorem ofProgram_of_commit_faulted {x : Except ErrorKind State} {t : State} {e : ErrorRecord}
    (hx : Answers NotFaulted x) (h : commit s x = .next t) (ht : t.status = .faulted e) : e.kind.OfProgram := by
  cases hx with
  | ok hu =>
    cases h
    rw [NotFaulted, ht] at hu; cases hu
  | error hk => cases h; cases ht; exact hk

end ProgramErrors

/-- Settles O24: the dispatch table has no row the ALU does not support, and no operation of a step raises LoadError. -/
theorem stepNeverRaisesUnsupportedOrLoadError : Obligations.StepNeverRaisesUnsupportedOrLoadError := by
  intro s t e h ht
  obtain ⟨hrun, ⟨k, hf, rfl⟩ | ⟨op, i, u, hf, hu, rfl⟩⟩ := step_cases h
  · cases ht
    have hans := fetch_answers s
    rw [hf] at hans
    cases hans with
    | error hk => exact hk.ne
  · obtain ⟨-, hd, -⟩ := fetch_eq_ok hf
    obtain ⟨x, hx, hans⟩ := exec_answers (dispatch_eq_some hd).1 (show NotFaulted s by rw [NotFaulted, hrun]; rfl)
    have hustatus : u.status = .faulted e := by split at ht <;> exact ht
    exact (ofProgram_of_commit_faulted hans (hx ▸ hu) hustatus).ne

end Sys2Proof.Machine

namespace Sys2Proof.Machine

/-! ## Frames: what an instruction leaves unchanged (10_state.md; 42_alu.md; 43_stack.md; 44_control_flow.md)

The instructions of one frame answer, where they raise no error, states of one form: the updates they make. The frame
follows from the form, and for an error from `Raised`. -/

/-- LDI and the ALU's instructions but CMP, which write the register `a` names. -/
def registerWriters (a b : Byte) : List Instr :=
  [.ldi a b, .add a b, .mul a b, .and a b, .or a b, .xor a b, .sub a b, .div a b, .mod a b, .not a]

/-- `s` after a push: SP moved to `sp`, byte `v` stored there, and PC at `n`. -/
def State.pushed (s : State) (sp v : Byte) (n : Nat) : State := ((s.setReg spIndex sp).setByte sp.toNat v).setPc n

section Frames

variable {s t : State} {a b : Byte} {i : Instr}

theorem toNat_ne_of_regByte {r q : Fin 8} (h : q.val ≠ (regByte r).toNat) : r ≠ q := by
  rintro rfl
  exact h (regByte_toNat r).symm

/-- A register and PC are all that is written. -/
theorem registerWriter_cases (hi : i ∈ registerWriters a b) (h : exec i s = .next t) :
    Raised s t ∨ ∃ r v n, a = regByte r ∧ t = (s.setReg r v).setPc n := by
  have halu {op : AluOp} (h : commit s (aluTwoRegisters op a b s) = .next t) :
      Raised s t ∨ ∃ r v n, a = regByte r ∧ t = (s.setReg r v).setPc n :=
    (aluTwoRegisters_cases h).imp_right fun ⟨r, _, v, ha, _, _, ht⟩ => ⟨r, v, _, ha, ht⟩
  simp only [registerWriters, List.mem_cons, List.not_mem_nil, or_false] at hi
  rcases hi with rfl | rfl | rfl | rfl | rfl | rfl | rfl | rfl | rfl | rfl
  case inl => exact (execLdi_cases h).imp_right fun ⟨r, ha, ht⟩ => ⟨r, _, _, ha, ht⟩
  case inr.inr.inr.inr.inr.inr.inr.inr.inr =>
    exact (execNot_cases h).imp_right fun ⟨r, ha, _, ht⟩ => ⟨r, _, _, ha, ht⟩
  all_goals exact halu h

/-- HLT, PRN, CMP and the jumps: PC, and the one thing each of the first three is for. -/
theorem noRegisterWriter_cases (hi : i ∈ ([.hlt, .prn a, .cmp a b, .jmp a, .jeq a, .jne a] : List Instr))
    (h : exec i s = .next t) :
    Raised s t ∨ (i = .hlt ∧ t = (s.setStatus (.halted s.pc)).setPc 0) ∨
      (i = .prn a ∧ ∃ v n, t = (s.emit v).setPc n) ∨ (i = .cmp a b ∧ ∃ v n, t = (s.setFl v).setPc n) ∨
      ∃ n, t = s.setPc n := by
  simp only [List.mem_cons, List.not_mem_nil, or_false] at hi
  rcases hi with rfl | rfl | rfl | rfl | rfl | rfl
  · exact .inr (.inl ⟨rfl, execHlt_cases h⟩)
  · exact (execPrn_cases h).imp_right fun ⟨_, _, ht⟩ => .inr (.inl ⟨rfl, _, _, ht⟩)
  · exact (execCmp_cases h).imp_right fun ⟨_, _, _, _, ht⟩ => .inr (.inr (.inl ⟨rfl, _, _, ht⟩))
  · exact (execJmp_cases h).imp_right fun ⟨_, _, ht⟩ => .inr (.inr (.inr ⟨_, ht⟩))
  · exact (jumpIf_cases h).imp_right fun ⟨_, _, ht⟩ => .inr (.inr (.inr ⟨_, ht⟩))
  · exact (jumpIf_cases h).imp_right fun ⟨_, _, ht⟩ => .inr (.inr (.inr ⟨_, ht⟩))

/-- PUSH and CALL: SP is decremented, and the byte at the new SP and PC are written. -/
theorem stackWriter_cases (hi : i ∈ ([.push a, .call a] : List Instr)) (h : exec i s = .next t) :
    Raised s t ∨ s.sp.toNat ≠ 0 ∧ ∃ v n, t = s.pushed (s.sp - 1) v n := by
  simp only [List.mem_cons, List.not_mem_nil, or_false] at hi
  rcases hi with rfl | rfl
  · exact (execPush_cases h).imp_right fun ⟨_, _, h0, ht⟩ => ⟨h0, _, _, ht⟩
  · exact (execCall_cases h).imp_right fun ⟨_, _, h0, _, ht⟩ => ⟨h0, _, _, ht⟩

/-- POP and RET: SP and PC, and before them POP's operand. -/
theorem stackReader_cases (hi : i ∈ ([.pop a, .ret] : List Instr)) (h : exec i s = .next t) :
    Raised s t ∨ (∃ r v w n, i = .pop (regByte r) ∧ t = ((s.setReg r v).setReg spIndex w).setPc n) ∨
      ∃ w n, t = (s.setReg spIndex w).setPc n := by
  simp only [List.mem_cons, List.not_mem_nil, or_false] at hi
  rcases hi with rfl | rfl
  · exact (execPop_cases h).imp_right fun ⟨r, ha, _, ht⟩ => .inl ⟨r, _, _, _, ha ▸ rfl, ht⟩
  · exact (execRet_cases h).imp_right fun ⟨_, ht⟩ => .inr ⟨_, _, ht⟩

end Frames

/-- Settles O31: such an instruction writes its register and PC, or takes an error. -/
theorem registerWritersFrame : Obligations.RegisterWritersFrame := by
  intro s t a b i hi h
  obtain ⟨k, rfl⟩ | ⟨r, v, n, rfl, rfl⟩ := registerWriter_cases hi h
  · exact ⟨fun _ _ => rfl, rfl, fun _ => rfl, rfl, rfl, rfl, .inr rfl⟩
  · exact ⟨fun q hq => State.setReg_reg_of_ne s v (toNat_ne_of_regByte hq), rfl, fun _ => rfl, rfl, rfl, rfl, .inl rfl⟩

/-- Settles O32: such an instruction writes PC and what it is for, or takes an error. -/
theorem noRegisterWrittenFrame : Obligations.NoRegisterWrittenFrame := by
  intro s t a b i hi h
  obtain ⟨k, rfl⟩ | ⟨rfl, rfl⟩ | ⟨rfl, v, n, rfl⟩ | ⟨rfl, v, n, rfl⟩ | ⟨n, rfl⟩ := noRegisterWriter_cases hi h
  · exact ⟨fun _ => rfl, fun _ => rfl, rfl, rfl, fun _ => rfl, fun _ => rfl, fun _ => .inr rfl⟩
  · exact ⟨fun _ => rfl, fun _ => rfl, rfl, rfl, fun _ => rfl, fun _ => rfl, fun hne => absurd rfl hne⟩
  · exact ⟨fun _ => rfl, fun _ => rfl, rfl, rfl, fun _ => rfl, fun hne => absurd rfl hne, fun _ => .inl rfl⟩
  · exact ⟨fun _ => rfl, fun _ => rfl, rfl, rfl, fun hne => absurd rfl hne, fun _ => rfl, fun _ => .inl rfl⟩
  · exact ⟨fun _ => rfl, fun _ => rfl, rfl, rfl, fun _ => rfl, fun _ => rfl, fun _ => .inl rfl⟩

/-- Settles O33: the one byte written stands at the SP that `spSet` answers, and an error leaves all bytes. -/
theorem stackWritersFrame : Obligations.StackWritersFrame := by
  intro s t a i hi h
  obtain ⟨k, rfl⟩ | ⟨h0, v, n, rfl⟩ := stackWriter_cases hi h
  · exact ⟨fun _ _ => rfl, fun _ _ _ _ => rfl, fun _ _ _ => rfl, fun _ _ _ => rfl, rfl, rfl, rfl, rfl, .inr rfl⟩
  · have hsp : spSet s.spBelow s = .ok (s.setReg spIndex (s.sp - 1)) := by rw [spSet_spBelow, if_neg h0]
    refine ⟨fun q hq => State.setReg_reg_of_ne s _ hq.symm, fun s1 hs1 n hn => ?_, fun k hk => ?_,
      fun hs ht => ?_, rfl, rfl, rfl, rfl, .inl rfl⟩
    · cases hsp.symm.trans hs1
      rw [State.setReg_sp_sp] at hn
      exact s.mem.get_set_ne v hn
    · cases hsp.symm.trans hk
    · cases hs.symm.trans ht

/-- Settles O34: POP writes its operand, SP and PC, RET the last two, or they take an error. -/
theorem stackReadersFrame : Obligations.StackReadersFrame := by
  intro s t a i hi h
  obtain ⟨k, rfl⟩ | ⟨r, v, w, n, rfl, rfl⟩ | ⟨w, n, rfl⟩ := stackReader_cases hi h
  · exact ⟨fun _ _ _ => rfl, fun _ => rfl, rfl, rfl, rfl, rfl, .inr rfl⟩
  · obtain rfl : a = regByte r := by simpa [eq_comm] using hi
    refine ⟨fun q hq hqr => ?_, fun _ => rfl, rfl, rfl, rfl, rfl, .inl rfl⟩
    have hrq : r ≠ q := toNat_ne_of_regByte (hqr rfl)
    have hsp : spIndex ≠ q := hq.symm
    rw [State.setPc_reg, State.setReg_reg_of_ne _ w hsp, State.setReg_reg_of_ne s v hrq]
  · exact ⟨fun q hq _ => State.setReg_reg_of_ne s w hq.symm, fun _ => rfl, rfl, rfl, rfl, rfl, .inl rfl⟩

/-- The four frames cover the instructions, and each keeps the configuration. -/
theorem exec_cfg {i : Instr} {s t : State} (h : exec i s = .next t) : t.cfg = s.cfg := by
  cases i with
  | ldi a b | add a b | mul a b | and a b | or a b | xor a b | sub a b | div a b | mod a b =>
    obtain ⟨-, -, -, -, -, hcfg, -⟩ := registerWritersFrame s t a b _ (by simp) h
    exact hcfg
  | not a =>
    obtain ⟨-, -, -, -, -, hcfg, -⟩ := registerWritersFrame s t a 0 _ (by simp) h
    exact hcfg
  | cmp a b =>
    obtain ⟨-, -, -, hcfg, -⟩ := noRegisterWrittenFrame s t a b _ (by simp) h
    exact hcfg
  | prn a | jmp a | jeq a | jne a =>
    obtain ⟨-, -, -, hcfg, -⟩ := noRegisterWrittenFrame s t a 0 _ (by simp) h
    exact hcfg
  | hlt =>
    obtain ⟨-, -, -, hcfg, -⟩ := noRegisterWrittenFrame s t 0 0 _ (by simp) h
    exact hcfg
  | push a | call a =>
    obtain ⟨-, -, -, -, -, -, -, hcfg, -⟩ := stackWritersFrame s t a _ (by simp) h
    exact hcfg
  | pop a =>
    obtain ⟨-, -, -, -, -, hcfg, -⟩ := stackReadersFrame s t a _ (by simp) h
    exact hcfg
  | ret =>
    obtain ⟨-, -, -, -, -, hcfg, -⟩ := stackReadersFrame s t 0 _ (by simp) h
    exact hcfg

theorem step_cfg {s t : State} (h : step s = .next t) : t.cfg = s.cfg := by
  obtain ⟨-, ⟨k, -, rfl⟩ | ⟨op, i, u, -, hu, rfl⟩⟩ := step_cases h
  · rfl
  · have hcfg : u.cfg = s.cfg := exec_cfg hu
    split <;> exact hcfg

/-- Settles O41: every step keeps the configuration, and so does every run; `load` writes memory alone. -/
theorem configurationIsImmutable : Obligations.ConfigurationIsImmutable := by
  have hrun (n : Nat) (s : State) : (hostRun n s).cfg = s.cfg :=
    hostRun_keeps (P := fun t => t.cfg = s.cfg) (fun _ h => h) (fun _ _ h ht => (step_cfg ht).trans h) rfl n
  refine ⟨fun _ _ => step_cfg, hrun, fun s => hostStep_eq_hostRun s ▸ hrun 1 s, fun img s t h => ?_⟩
  obtain ⟨bs, -, rfl⟩ := load_eq_loaded h
  rfl

end Sys2Proof.Machine

namespace Sys2Proof.Machine

/-! ## What an instruction does not see (10_state.md section 7; 42_alu.md section 3, closing rule)

A change `f` of the state is unseen by an instruction where making it before the instruction is making it afterwards. The
ALU's instructions do not see a change that keeps what they read and commutes with what they write. -/

/-- The ALU's instructions, with operands `a` and `b`. -/
def aluInstrs (a b : Byte) : List Instr :=
  [.add a b, .mul a b, .and a b, .or a b, .xor a b, .cmp a b, .sub a b, .div a b, .mod a b, .not a]

section Unseen

variable {s t : State} {f : State → State} {a b : Byte} {i : Instr}

/-- A change that keeps PC and commutes with taking an error can be made after a handler that does not see it. -/
theorem commit_map (hpc : (f s).pc = s.pc) (hstatus : ∀ v, (f s).setStatus v = f (s.setStatus v))
    {x y : Except ErrorKind State} (h : commit s x = .next t) (hxy : y = f <$> x) : commit (f s) y = .next (f t) := by
  subst hxy
  cases x with
  | ok u => cases h; rfl
  | error k =>
    cases h
    change raise k (f s) = _
    rw [raise_eq, hstatus, hpc]

/-- A sequence does not see the change where its first part gives the same value and its second part does not see it. -/
theorem bind_map {α : Type} {x : Except ErrorKind α} {g g' : α → Except ErrorKind State}
    (h : ∀ v, x = .ok v → g' v = f <$> g v) : (x >>= g') = f <$> (x >>= g) := by
  cases x with
  | ok v => exact h v rfl
  | error k => rfl

/-- A sequence of two parts that do not see the change. -/
theorem bind_map_state {x x' : Except ErrorKind State} {g g' : State → Except ErrorKind State} (hx : x' = f <$> x)
    (h : ∀ u, g' (f u) = f <$> g u) : (x' >>= g') = f <$> (x >>= g) := by
  subst hx
  cases x with
  | ok u => exact h u
  | error k => rfl

/-- `f` keeps what an ALU instruction with operands `a` and `b` reads, and commutes with what it can write. -/
structure UnseenByAlu (f : State → State) (a b : Byte) : Prop where
  cfg : ∀ s, (f s).cfg = s.cfg
  pc : ∀ s, (f s).pc = s.pc
  reg : ∀ s r, a = regByte r ∨ b = regByte r → (f s).reg r = s.reg r
  setReg : ∀ s r v, a = regByte r → (f s).setReg r v = f (s.setReg r v)
  setPc : ∀ s n, (f s).setPc n = f (s.setPc n)
  setFl : ∀ s v, (f s).setFl v = f (s.setFl v)
  setStatus : ∀ s v, (f s).setStatus v = f (s.setStatus v)

namespace UnseenByAlu

theorem aluTwoRegisters_map (hf : UnseenByAlu f a b) (op : AluOp) (s : State) :
    aluTwoRegisters op a b (f s) = f <$> aluTwoRegisters op a b s := by
  refine bind_map fun ra hra => bind_map fun rb hrb => ?_
  rw [hf.cfg, hf.reg s ra (.inl (checkReg_eq_ok.mp hra)), hf.reg s rb (.inr (checkReg_eq_ok.mp hrb)), hf.pc]
  refine bind_map fun v _ => ?_
  rw [hf.setReg s ra v (checkReg_eq_ok.mp hra), hf.setPc]
  rfl

theorem exec_alu (hf : UnseenByAlu f a b) (hi : i ∈ aluInstrs a b) (h : exec i s = .next t) : exec i (f s) = .next (f t) := by
  have htwo {op : AluOp} (h : commit s (aluTwoRegisters op a b s) = .next t) :
      commit (f s) (aluTwoRegisters op a b (f s)) = .next (f t) :=
    commit_map (hf.pc s) (hf.setStatus s) h (hf.aluTwoRegisters_map op s)
  simp only [aluInstrs, List.mem_cons, List.not_mem_nil, or_false] at hi
  rcases hi with rfl | rfl | rfl | rfl | rfl | rfl | rfl | rfl | rfl | rfl
  case inr.inr.inr.inr.inr.inl =>
    refine commit_map (hf.pc s) (hf.setStatus s) h (bind_map fun ra hra => bind_map fun rb hrb => ?_)
    rw [hf.cfg, hf.reg s ra (.inl (checkReg_eq_ok.mp hra)), hf.reg s rb (.inr (checkReg_eq_ok.mp hrb)), hf.pc]
    refine bind_map fun v _ => ?_
    rw [hf.setFl, hf.setPc]
    rfl
  case inr.inr.inr.inr.inr.inr.inr.inr.inr =>
    refine commit_map (hf.pc s) (hf.setStatus s) h (bind_map fun ra hra => ?_)
    rw [hf.cfg, hf.reg s ra (.inl (checkReg_eq_ok.mp hra)), hf.pc]
    refine bind_map fun v _ => ?_
    rw [hf.setReg s ra v (checkReg_eq_ok.mp hra), hf.setPc]
    rfl
  all_goals exact htwo h

end UnseenByAlu

/-- `mem <- m`. -/
def State.setMem (s : State) (m : Memory) : State := { s with mem := m }

/-- `out <- o`. -/
def State.setOut (s : State) (o : List Byte) : State := { s with out := o }

theorem setMem_unseenByAlu (m : Memory) (a b : Byte) : UnseenByAlu (State.setMem · m) a b where
  cfg _ := rfl
  pc _ := rfl
  reg _ _ _ := rfl
  setReg _ _ _ _ := rfl
  setPc _ _ := rfl
  setFl _ _ := rfl
  setStatus _ _ := rfl

theorem setOut_unseenByAlu (o : List Byte) (a b : Byte) : UnseenByAlu (State.setOut · o) a b where
  cfg _ := rfl
  pc _ := rfl
  reg _ _ _ := rfl
  setReg _ _ _ _ := rfl
  setPc _ _ := rfl
  setFl _ _ := rfl
  setStatus _ _ := rfl

theorem ne_spIndex_of_regByte {r : Fin 8} (hb : b.toNat ≠ 7) (h : b = regByte r) : spIndex ≠ r := by
  rintro rfl
  exact hb (h ▸ regByte_toNat spIndex)

/-- SP is unseen where neither operand names it. -/
theorem setSp_unseenByAlu (v : Byte) (ha : a.toNat ≠ 7) (hb : b.toNat ≠ 7) :
    UnseenByAlu (State.setReg · spIndex v) a b where
  cfg _ := rfl
  pc _ := rfl
  reg s _ h := s.setReg_reg_of_ne v (h.elim (ne_spIndex_of_regByte ha) (ne_spIndex_of_regByte hb))
  setReg s r w h := by
    have hne : spIndex.val ≠ r.val := Fin.val_ne_of_ne (ne_spIndex_of_regByte ha h)
    simp only [State.setReg]
    rw [Vector.set_comm _ _ hne]
  setPc _ _ := rfl
  setFl _ _ := rfl
  setStatus _ _ := rfl

theorem spSet_setOut (z : Int) (s : State) (o : List Byte) : spSet z (s.setOut o) = (State.setOut · o) <$> spSet z s := by
  unfold spSet
  split <;> rfl

theorem memWrite_setOut (z : Int) (v : Byte) (s : State) (o : List Byte) :
    memWrite z v (s.setOut o) = (State.setOut · o) <$> memWrite z v s := by
  unfold memWrite
  split <;> rfl

/-- Every instruction but PRN does not see the output log. -/
theorem exec_setOut (hi : ∀ a, i ≠ .prn a) (o : List Byte) (h : exec i s = .next t) :
    exec i (s.setOut o) = .next (t.setOut o) := by
  have hcommit {x y : Except ErrorKind State} (h : commit s x = .next t) (hxy : y = (State.setOut · o) <$> x) :
      commit (s.setOut o) y = .next (t.setOut o) := commit_map rfl (fun _ => rfl) h hxy
  cases i with
  | hlt => cases h; rfl
  | prn a => exact absurd rfl (hi a)
  | ldi | jmp | jeq | jne => exact hcommit h (bind_map fun _ _ => rfl)
  | add a b | mul a b | and a b | or a b | xor a b | cmp a b | sub a b | div a b | mod a b =>
    exact (setOut_unseenByAlu o a b).exec_alu (by simp [aluInstrs]) h
  | not a => exact (setOut_unseenByAlu o a a).exec_alu (by simp [aluInstrs]) h
  | push =>
    exact hcommit h (bind_map fun _ _ => bind_map_state (spSet_setOut ..) fun _ =>
      bind_map_state (memWrite_setOut ..) fun _ => rfl)
  | pop =>
    simp only [exec, execPop, memRead_byte, ok_bind] at h ⊢
    exact hcommit h (bind_map fun r _ =>
      bind_map_state (spSet_setOut _ (s.setReg r (s.byte s.sp.toNat)) o) fun _ => rfl)
  | call =>
    exact hcommit h (bind_map fun _ _ => bind_map_state (spSet_setOut ..) fun _ => bind_map fun _ _ =>
      bind_map_state (memWrite_setOut ..) fun _ => rfl)
  | ret =>
    simp only [exec, execRet, memRead_byte, ok_bind] at h ⊢
    exact hcommit h (bind_map_state (spSet_setOut ..) fun _ => rfl)

/-- PRN's answer for another output log. -/
theorem execPrn_setOut (o : List Byte) (h : execPrn a s = .next t) :
    ∃ o', execPrn a (s.setOut o) = .next (t.setOut o') := by
  unfold execPrn at h ⊢
  cases ha : checkReg a with
  | error k => rw [ha] at h; cases h; exact ⟨o, rfl⟩
  | ok r => rw [ha] at h; cases h; exact ⟨o ++ [s.reg r], rfl⟩

/-- An instruction that is not PRN keeps the output log: it does not see the log's own value written again. -/
theorem exec_out (hi : ∀ a, i ≠ .prn a) (h : exec i s = .next t) : t.out = s.out := by
  have hinj : t = t.setOut s.out := Host.Outcome.next.inj (h.symm.trans (exec_setOut hi s.out h))
  rw [hinj]
  rfl

end Unseen

/-- Settles O38: every instruction but PRN does not see the log and so keeps it, and PRN appends its register. -/
theorem onlyPrintWritesTheOutputLog : Obligations.OnlyPrintWritesTheOutputLog := by
  intro i s t h
  by_cases hi : ∃ a, i = .prn a
  · obtain ⟨a, rfl⟩ := hi
    refine ⟨?_, fun o => ?_⟩
    · obtain ⟨k, rfl⟩ | ⟨r, rfl, rfl⟩ := execPrn_cases h
      · exact .inl rfl
      · exact .inr ⟨r, rfl, rfl⟩
    · obtain ⟨o', ho'⟩ := execPrn_setOut o h
      exact ⟨_, ho', rfl⟩
  · have hne : ∀ a, i ≠ .prn a := fun a ha => hi ⟨a, ha⟩
    exact ⟨.inl (exec_out hne h), fun o => ⟨_, exec_setOut hne o h, rfl⟩⟩

/-- Settles O39: the frame of the register writers and of CMP, and what the ALU's instructions do not see. -/
theorem aluInstructionsHaveNoOtherEffect : Obligations.AluInstructionsHaveNoOtherEffect := by
  intro s t a b i hi h
  have hmem : ∀ m, exec i (s.setMem m) = .next (t.setMem m) := fun m => (setMem_unseenByAlu m a b).exec_alu hi h
  have hsp : ∀ v : Byte, a.toNat ≠ 7 → (b.toNat ≠ 7 ∨ i = .not a) →
      exec i (s.setReg spIndex v) = .next (t.setReg spIndex v) := by
    rintro v ha (hb | rfl)
    · exact (setSp_unseenByAlu v ha hb).exec_alu hi h
    · exact (setSp_unseenByAlu v ha ha).exec_alu (by simp [aluInstrs]) h
  by_cases hcmp : i = .cmp a b
  · subst hcmp
    obtain ⟨k, rfl⟩ | ⟨ra, rb, -, -, rfl⟩ := execCmp_cases h
    · exact ⟨fun _ _ => rfl, fun _ => rfl, rfl, rfl, rfl, rfl, .inr rfl, hmem, hsp⟩
    · exact ⟨fun _ _ => rfl, fun hne => absurd rfl hne, rfl, rfl, rfl, rfl, .inl rfl, hmem, hsp⟩
  · have hwriter : i ∈ registerWriters a b := by
      simp only [registerWriters, List.mem_cons] at hi ⊢
      tauto
    obtain ⟨k, rfl⟩ | ⟨r, v, n, rfl, rfl⟩ := registerWriter_cases hwriter h
    · exact ⟨fun _ _ => rfl, fun _ => rfl, rfl, rfl, rfl, rfl, .inr rfl, hmem, hsp⟩
    · refine ⟨fun q hq => ?_, fun _ => rfl, rfl, rfl, rfl, rfl, .inl rfl, hmem, hsp⟩
      exact State.setReg_reg_of_ne s v (toNat_ne_of_regByte (hq.resolve_left hcmp))

end Sys2Proof.Machine

namespace Sys2Proof.Machine

/-! ## Memory (20_memory.md; 10_state.md R31) -/

/-- A write at an address the checker accepts. -/
theorem memWrite_of_mem {a : Int} (h : 0 ≤ a ∧ a < 256) (v : Byte) (s : State) :
    memWrite a v s = .ok (s.setByte a.toNat v) := by
  rw [memWrite, checkAddr_of_mem h]

theorem memWrite_of_not_mem {a : Int} (h : ¬(0 ≤ a ∧ a < 256)) (v : Byte) (s : State) :
    memWrite a v s = .error (.outOfBounds a) := by
  rw [memWrite, checkAddr_of_not_mem h]

theorem cellsOk_cons {lo : Nat} {c : Host.Cell} {l : List Host.Cell} :
    cellsOk lo (c :: l) = true ↔ lo ≤ c.1 ∧ c.1 < memSize ∧ c.2 ≠ blankByte ∧ cellsOk (c.1 + 1) l = true := by
  simp [cellsOk, and_assoc]

theorem cellsGet_cons_same (c : Host.Cell) (l : List Host.Cell) : cellsGet (c :: l) c.1 = c.2 := by
  simp [cellsGet]

theorem cellsGet_cons_ne {c : Host.Cell} {a : Nat} (h : a ≠ c.1) (l : List Host.Cell) :
    cellsGet (c :: l) a = cellsGet l a := by
  simp [cellsGet, h]

/-- The first listed cell is not blank, so a list that reads the same lists a cell at no higher address first. -/
theorem head_le_of_cellsGet_eq {lo : Nat} {c c' : Host.Cell} {l l' : List Host.Cell} (hl : cellsOk lo (c :: l) = true)
    (hl' : cellsOk lo (c' :: l') = true) (h : ∀ a < memSize, cellsGet (c :: l) a = cellsGet (c' :: l') a) :
    c'.1 ≤ c.1 := by
  obtain ⟨-, hc, hblank, -⟩ := cellsOk_cons.mp hl
  obtain ⟨-, -, -, hok'⟩ := cellsOk_cons.mp hl'
  by_contra hlt
  have hread := h c.1 hc
  rw [cellsGet_cons_same, cellsGet_cons_ne (by omega), cellsGet_below hok' (by omega)] at hread
  exact hblank hread

/-- Cells in canonical form that read the same inside memory are the same cells. -/
theorem cells_ext {lo : Nat} {l l' : List Host.Cell} (hl : cellsOk lo l = true) (hl' : cellsOk lo l' = true)
    (h : ∀ a < memSize, cellsGet l a = cellsGet l' a) : l = l' := by
  induction l generalizing lo l' with
  | nil =>
    cases l' with
    | nil => rfl
    | cons c' r' =>
      obtain ⟨-, hc', hblank', -⟩ := cellsOk_cons.mp hl'
      exact absurd ((h c'.1 hc').trans (cellsGet_cons_same c' r')).symm hblank'
  | cons c r ih =>
    obtain ⟨-, hc, hblank, hr⟩ := cellsOk_cons.mp hl
    cases l' with
    | nil => exact absurd ((cellsGet_cons_same c r).symm.trans (h c.1 hc)) hblank
    | cons c' r' =>
      obtain ⟨-, -, -, hr'⟩ := cellsOk_cons.mp hl'
      have haddr : c.1 = c'.1 :=
        le_antisymm (head_le_of_cellsGet_eq hl' hl fun a ha => (h a ha).symm) (head_le_of_cellsGet_eq hl hl' h)
      have hbyte : c.2 = c'.2 := by
        rw [← cellsGet_cons_same c r, h c.1 hc, haddr, cellsGet_cons_same]
      obtain rfl : c = c' := Prod.ext haddr hbyte
      rw [ih hr hr' fun a ha => ?_]
      by_cases hac : a = c.1
      · rw [cellsGet_below hr (by omega), cellsGet_below hr' (by omega)]
      · rw [← cellsGet_cons_ne hac r, h a ha, cellsGet_cons_ne hac]

/-- Settles O46, by the address checker's two answers and the laws of `Memory.set`. -/
theorem memoryWriteThenRead : Obligations.MemoryWriteThenRead := by
  refine fun a v s hwf => ⟨fun h => ?_, fun h => memWrite_of_not_mem h v s⟩
  have ha : a.toNat < memSize := by simp only [memSize]; omega
  exact ⟨_, memWrite_of_mem h v s, Memory.set_wf hwf v ha, rfl, fun n => Memory.get_set hwf a.toNat n v⟩

/-- Settles O47, by induction on the two lists of cells. -/
theorem equalMemoriesAreEqualData : Obligations.EqualMemoriesAreEqualData := by
  intro m m' hm hm' h
  cases m
  cases m'
  exact congrArg Memory.mk (cells_ext hm hm' h)

/-! ## What `load` refuses (70_reset_and_hazards.md R133, R134) -/

/-- The element check names the first element that is no byte. -/
theorem firstBad_append_cons {pre post : List Token} {x : Token} (hpre : ∀ y ∈ pre, y.byte?.isSome = true)
    (hx : x.byte? = none) (k : Nat) : firstBad k (pre ++ x :: post) = some (k + pre.length) := by
  induction pre generalizing k with
  | nil => simp [firstBad, hx]
  | cons y r ih =>
    obtain ⟨hy, hr⟩ := List.forall_mem_cons.mp hpre
    obtain ⟨v, hv⟩ := Option.isSome_iff_exists.mp hy
    rw [List.cons_append, firstBad, hv, if_neg (by simp), ih hr, List.length_cons]
    congr 1
    omega

/-- Settles O57: an accepted `load` is `loadImage`, which checks the elements and then the length. -/
theorem loadChecksBeforeItWrites : Obligations.LoadChecksBeforeItWrites := by
  refine fun s ts => ⟨fun e he => ⟨by simp only [load, he], by simp only [load, he]⟩, fun hs => ⟨?_, ?_, ?_⟩⟩
  · exact ⟨none, load_of_idle_or_halted hs _⟩
  · rintro pre post x rfl hpre hx
    rw [load_of_idle_or_halted hs, loadImage, firstBad_append_cons hpre hx, Nat.zero_add]
  · intro hts hlen
    have hcheck : firstBad 0 ts = none := (firstBad_eq_none_iff 0 ts).mpr hts
    simp only [load_of_idle_or_halted hs, loadImage, hcheck]
    exact if_pos hlen

/-! ## The console's text (41_halt_load_print.md R83) -/

/-- The digits of a byte, by its three ranges. -/
theorem decimalDigits_cases (v : Byte) :
    (v.toNat < 10 ∧ decimalDigits v = [v.toNat]) ∨
    (10 ≤ v.toNat ∧ v.toNat < 100 ∧ decimalDigits v = [v.toNat / 10, v.toNat % 10]) ∨
    (100 ≤ v.toNat ∧ v.toNat < 256 ∧ decimalDigits v = [v.toNat / 100, v.toNat / 10 % 10, v.toNat % 10]) := by
  by_cases h10 : v.toNat < 10
  · exact .inl ⟨h10, if_pos h10⟩
  · by_cases h100 : v.toNat < 100
    · exact .inr (.inl ⟨by omega, h100, (if_neg h10).trans (if_pos h100)⟩)
    · exact .inr (.inr ⟨by omega, v.isLt, (if_neg h10).trans (if_neg h100)⟩)

/-- The digits of a byte denote it, are digits, are not empty, and begin with 0 for the byte 0 only. -/
theorem decimalDigits_spec (v : Byte) :
    (decimalDigits v).foldl (fun n d => 10 * n + d) 0 = v.toNat ∧ (∀ d ∈ decimalDigits v, d < 10) ∧
      decimalDigits v ≠ [] ∧ ((decimalDigits v).head? = some 0 → decimalDigits v = [0]) := by
  obtain ⟨h, hd⟩ | ⟨hlo, hhi, hd⟩ | ⟨hlo, hhi, hd⟩ := decimalDigits_cases v
  · rw [hd]
    exact ⟨by simp, by simpa using h, by simp, by simp⟩
  · rw [hd]
    refine ⟨?_, ?_, by simp, fun h0 => ?_⟩
    · simp only [List.foldl_cons, List.foldl_nil]; omega
    · simp only [List.forall_mem_cons, List.not_mem_nil, false_imp_iff, implies_true, and_true]; omega
    · simp only [List.head?_cons, Option.some.injEq] at h0; omega
  · rw [hd]
    refine ⟨?_, ?_, by simp, fun h0 => ?_⟩
    · simp only [List.foldl_cons, List.foldl_nil]; omega
    · simp only [List.forall_mem_cons, List.not_mem_nil, false_imp_iff, implies_true, and_true]; omega
    · simp only [List.head?_cons, Option.some.injEq] at h0; omega

/-- Settles O59: the digits by the three ranges of a byte, the lines because the text is the log's lines in order. -/
theorem consoleLinesAreDecimal : Obligations.ConsoleLinesAreDecimal := by
  refine ⟨decimalDigits_spec, rfl, fun o v => ?_⟩
  rw [consoleText, List.flatMap_append, List.flatMap_singleton]
  rfl

end Sys2Proof.Machine

namespace Sys2Proof.Machine

/-! ## What each instruction does, on legal register operands (41_halt_load_print.md; 42_alu.md; 44_control_flow.md) -/

theorem State.reg_construct (c : Config) (r : Fin 8) : (State.construct c).reg r = if r = 7 then 0xF4 else 0x00 := by
  fin_cases r <;> rfl

/-- Settles O2, by the reset table. -/
theorem resetValues : Obligations.ResetValues :=
  fun c => ⟨rfl, State.reg_construct c, rfl, rfl, rfl, rfl, fun _ _ => rfl, rfl, rfl⟩

/-- Settles O3: HLT's computation is its effect. -/
theorem haltResult : Obligations.HaltResult := fun _ => rfl

/-- A handler whose operand names a register goes on with it. -/
theorem commit_checkReg_regByte (r : Fin 8) (f : Fin 8 → Except ErrorKind State) (s : State) :
    commit s (checkReg (regByte r) >>= f) = commit s (f r) := by
  rw [checkReg_regByte, ok_bind]

/-- Settles O4: LDI checks its register and writes the immediate. -/
theorem loadImmediateResult : Obligations.LoadImmediateResult := fun s ra _ => commit_checkReg_regByte ra _ s

/-- Settles O5: PRN checks its register and appends its value. -/
theorem printResult : Obligations.PrintResult := fun s ra => commit_checkReg_regByte ra _ s

/-- Settles O18: JMP checks its register and writes PC. -/
theorem jumpResult : Obligations.JumpResult := fun s ra => commit_checkReg_regByte ra _ s

theorem commit_jumpIf_regByte (taken : Bool) (r : Fin 8) (s : State) :
    commit s (jumpIf taken (regByte r) s) = .next (s.setPc (if taken then (s.reg r).toNat else s.pc + 2)) :=
  commit_checkReg_regByte r _ s

/-- E is FL's lowest bit. -/
theorem State.flagEqual_eq (s : State) : s.flagEqual = decide (s.fl.toNat % 2 = 1) := by
  rw [State.flagEqual, BitVec.getLsbD, Nat.testBit_zero]

/-- Settles O19: both jumps are `jumpIf`, on E and on its complement. -/
theorem conditionalJumpResults : Obligations.ConditionalJumpResults := by
  refine fun s ra => ⟨fun h => ?_, fun h => ?_⟩
  · have he : s.flagEqual = true := by rw [s.flagEqual_eq, h]; rfl
    simp only [exec, execJeq, execJne, commit_jumpIf_regByte, he]
    exact ⟨rfl, rfl⟩
  · have he : s.flagEqual = false := by rw [s.flagEqual_eq, h]; rfl
    simp only [exec, execJeq, execJne, commit_jumpIf_regByte, he]
    exact ⟨rfl, rfl⟩

/-! The ALU's instructions are determined by what the ALU answers for the two registers. -/

section Alu

variable {s : State} {op : AluOp} {ra rb : Fin 8}

theorem aluTwoRegisters_regByte (op : AluOp) (ra rb : Fin 8) (s : State) :
    aluTwoRegisters op (regByte ra) (regByte rb) s =
      (alu s.cfg op (s.reg ra) (s.reg rb) >>= fun v => .ok ((s.setReg ra v).setPc (s.pc + 3))) := by
  simp only [aluTwoRegisters, checkReg_regByte, ok_bind]

theorem commit_aluTwoRegisters_of_ok {v : Byte} (h : alu s.cfg op (s.reg ra) (s.reg rb) = .ok v) :
    commit s (aluTwoRegisters op (regByte ra) (regByte rb) s) =
      .next { s with regs := s.regs.set ra.val v, pc := s.pc + 3 } := by
  rw [aluTwoRegisters_regByte, h]
  rfl

theorem commit_aluTwoRegisters_of_error {k : ErrorKind} (h : alu s.cfg op (s.reg ra) (s.reg rb) = .error k) :
    commit s (aluTwoRegisters op (regByte ra) (regByte rb) s) =
      .next { s with status := .faulted { kind := k, pc := some s.pc } } := by
  rw [aluTwoRegisters_regByte, h]
  rfl

end Alu

/-- Settles O6, by the ALU's answer for ADD. -/
theorem addResult : Obligations.AddResult :=
  fun _ _ _ => ⟨_, narrow_toNat _, commit_aluTwoRegisters_of_ok (alu_add ..)⟩

/-- Settles O7, by the ALU's answer for MUL. -/
theorem mulResult : Obligations.MulResult :=
  fun _ _ _ => ⟨_, narrow_toNat _, commit_aluTwoRegisters_of_ok (alu_mul ..)⟩

/-- Settles O8, by the ALU's answers and the bits of bitwise results. -/
theorem bitwiseResults : Obligations.BitwiseResults :=
  fun _ _ _ =>
    ⟨⟨_, fun _ _ => BitVec.getLsbD_and, commit_aluTwoRegisters_of_ok (alu_and ..)⟩,
      ⟨_, fun _ _ => BitVec.getLsbD_or, commit_aluTwoRegisters_of_ok (alu_or ..)⟩,
      ⟨_, fun _ _ => BitVec.getLsbD_xor, commit_aluTwoRegisters_of_ok (alu_xor ..)⟩⟩

theorem narrowInt_toNat_emod (z : Int) : ((narrowInt z).toNat : Int) = z % 256 := by
  rw [narrowInt, BitVec.toNat_ofInt]
  omega

/-- Settles O10: narrowing an integer takes its remainder modulo 256. -/
theorem subResult : Obligations.SubResult :=
  fun _ _ _ hext => ⟨_, narrowInt_toNat_emod _, commit_aluTwoRegisters_of_ok (alu_of_ext hext ..)⟩

theorem toNat_ne_zero {b : Byte} (h : b ≠ 0) : b.toNat ≠ 0 := fun h0 => h (BitVec.eq_of_toNat_eq h0)

/-- Settles O11: a quotient of bytes is a byte. -/
theorem divideResult : Obligations.DivideResult := by
  intro s ra rb hext hb
  have hquot : (s.reg ra).toNat / (s.reg rb).toNat < 256 := (Nat.div_le_self _ _).trans_lt (s.reg ra).isLt
  exact ⟨_, (narrow_toNat _).trans (Nat.mod_eq_of_lt hquot),
    commit_aluTwoRegisters_of_ok ((alu_of_ext hext ..).trans (if_neg (toNat_ne_zero hb)))⟩

/-- Settles O12: a remainder of bytes is a byte. -/
theorem remainderResult : Obligations.RemainderResult := by
  intro s ra rb hext hb
  have hrem : (s.reg ra).toNat % (s.reg rb).toNat < 256 := (Nat.mod_le _ _).trans_lt (s.reg ra).isLt
  exact ⟨_, (narrow_toNat _).trans (Nat.mod_eq_of_lt hrem),
    commit_aluTwoRegisters_of_ok ((alu_of_ext hext ..).trans (if_neg (toNat_ne_zero hb)))⟩

theorem exec_not_regByte (ra : Fin 8) (s : State) :
    exec (.not (regByte ra)) s =
      commit s (alu s.cfg .not (s.reg ra) 0 >>= fun v => .ok ((s.setReg ra v).setPc (s.pc + 2))) :=
  commit_checkReg_regByte ra _ s

/-- Settles O13, by the ALU's answer for NOT and the bits of a complement. -/
theorem complementResult : Obligations.ComplementResult := by
  intro s ra hext
  refine ⟨~~~(s.reg ra), fun k hk => by simp [hk], ?_⟩
  rw [exec_not_regByte, alu_of_ext hext]
  rfl

/-! ## Errors an instruction raises -/

/-- Settles O22: for a zero divisor the ALU answers the error. -/
theorem zeroDivisorRaisesDivideByZero : Obligations.ZeroDivisorRaisesDivideByZero := by
  intro s ra rb hext hb
  have h0 : (s.reg rb).toNat = 0 := by rw [hb]; rfl
  simp only [List.forall_mem_cons, List.not_mem_nil, false_imp_iff, implies_true, and_true]
  exact ⟨commit_aluTwoRegisters_of_error ((alu_of_ext hext ..).trans (if_pos h0)),
    commit_aluTwoRegisters_of_error ((alu_of_ext hext ..).trans (if_pos h0))⟩

/-- Settles O23: the ALU lacks the four operations, and the handlers ask for nothing else. -/
theorem missingAluOperationIsUnsupported : Obligations.MissingAluOperationIsUnsupported := by
  intro s ra rb hext
  simp only [List.forall_mem_cons, List.not_mem_nil, false_imp_iff, implies_true, and_true]
  refine ⟨commit_aluTwoRegisters_of_error (alu_unsupported (op := .sub) hext ..),
    commit_aluTwoRegisters_of_error (alu_unsupported (op := .div) hext ..),
    commit_aluTwoRegisters_of_error (alu_unsupported (op := .mod) hext ..), ?_⟩
  rw [exec_not_regByte, alu_unsupported (op := .not) hext]
  rfl

/-- A handler whose operand is illegal raises InvalidRegister, whatever it would do next. -/
theorem commit_checkReg_of_ge {b : Byte} (h : 8 ≤ b.toNat) (f : Fin 8 → Except ErrorKind State) (s : State) :
    commit s (checkReg b >>= f) = .next { s with status := .faulted { kind := .invalidRegister b, pc := some s.pc } } := by
  rw [checkReg_of_ge h]
  rfl

/-- The same for the second operand, where the first is legal. -/
theorem commit_checkReg_checkReg_of_ge {a b : Byte} (ha : a.toNat < 8) (hb : 8 ≤ b.toNat)
    (f : Fin 8 → Fin 8 → Except ErrorKind State) (s : State) :
    commit s (checkReg a >>= fun ra => checkReg b >>= f ra) =
      .next { s with status := .faulted { kind := .invalidRegister b, pc := some s.pc } } := by
  rw [checkReg_of_lt ha, ok_bind, commit_checkReg_of_ge hb]

/-- Settles O20: every handler begins with the check of its operands. -/
theorem illegalRegisterByteRaisesInvalidRegister : Obligations.IllegalRegisterByteRaisesInvalidRegister := by
  refine fun s a b => ⟨fun ha => ?_, fun ha hb => ?_⟩
  · simp only [List.forall_mem_cons, List.not_mem_nil, false_imp_iff, implies_true, and_true]
    and_intros <;> exact commit_checkReg_of_ge ha _ s
  · simp only [List.forall_mem_cons, List.not_mem_nil, false_imp_iff, implies_true, and_true]
    and_intros <;> exact commit_checkReg_checkReg_of_ge ha hb _ s

end Sys2Proof.Machine

namespace Sys2Proof.Machine

/-! ## The stack (43_stack.md; 44_control_flow.md)

`execPush_regByte` and its like give the new SP as `SP - 1` or `SP + 1` of bytes; the statements give it as a byte whose
value is one less or one more. -/

section Stack

variable {s t u : State} {b new : Byte} {r : Fin 8}

theorem eq_sub_one_of_toNat (h : new.toNat + 1 = b.toNat) : new = b - 1 := by
  bv_omega

theorem eq_add_one_of_toNat (h : new.toNat = b.toNat + 1) : new = b + 1 := by
  bv_omega

theorem eq_narrow_of_toNat {n : Nat} (h : new.toNat = n) : new = narrow n := by
  apply BitVec.eq_of_toNat_eq
  rw [narrow_toNat, ← h, Nat.mod_eq_of_lt new.isLt]

theorem toNat_ne_of_add_one (h : new.toNat = b.toNat + 1) : b.toNat ≠ 255 := by
  have := new.isLt
  omega

/-- A register as PUSH and CALL see it, after SP was decremented. -/
theorem setReg_sp_reg (s : State) (r : Fin 8) (v : Byte) :
    (s.setReg spIndex v).reg r = if r = 7 then v else s.reg r := by
  rw [State.setReg_reg]
  simp only [spIndex, eq_comm]

/-- SP as POP sees it, after its operand was written. -/
theorem setReg_sp (s : State) (r : Fin 8) (v : Byte) : (s.setReg r v).sp = if r = 7 then v else s.sp :=
  s.setReg_reg r spIndex v

theorem State.pushed_sp (s : State) (sp v : Byte) (n : Nat) : (s.pushed sp v n).sp = sp := s.setReg_sp_sp sp

/-- The byte pushed stands where SP points. -/
theorem State.pushed_byte (hwf : s.mem.wf = true) (sp v : Byte) (n : Nat) : (s.pushed sp v n).byte sp.toNat = v :=
  Memory.get_set_same hwf sp.toNat v

theorem exec_push_regByte (h0 : s.sp.toNat ≠ 0) :
    exec (.push (regByte r)) s =
      .next (s.pushed (s.sp - 1) (if r = 7 then s.sp - 1 else s.reg r) (s.pc + 2)) := by
  rw [exec, execPush_regByte, if_neg h0, setReg_sp_reg]
  rfl

theorem exec_call_regByte (h0 : s.sp.toNat ≠ 0) (hpc : s.pc + 2 < 256) :
    exec (.call (regByte r)) s =
      .next (s.pushed (s.sp - 1) (narrow (s.pc + 2)) (if r = 7 then s.sp - 1 else s.reg r).toNat) := by
  rw [exec, execCall_regByte, if_neg h0, if_neg (by omega), setReg_sp_reg]
  rfl

theorem exec_pop_regByte (hr : r ≠ 7) (hsp : s.sp.toNat ≠ 255) :
    exec (.pop (regByte r)) s =
      .next (((s.setReg r (s.byte s.sp.toNat)).setReg spIndex (s.sp + 1)).setPc (s.pc + 2)) := by
  have hsp' : (s.setReg r (s.byte s.sp.toNat)).sp = s.sp := by rw [setReg_sp, if_neg hr]
  rw [exec, execPop_regByte, hsp', if_neg hsp]

theorem exec_ret_eq (hsp : s.sp.toNat ≠ 255) :
    exec .ret s = .next ((s.setReg spIndex (s.sp + 1)).setPc (s.byte s.sp.toNat).toNat) := by
  rw [exec, execRet_eq, if_neg hsp]

theorem sub_one_toNat_ne (h : b ≠ 0) : (b - 1).toNat ≠ 255 := by
  have h0 := toNat_ne_zero h
  bv_omega

/-- A fetch at an address inside memory takes the byte there for the opcode. -/
theorem fetch_of_byte_eq {v : Byte} (hpc : u.pc < 256) (hv : u.byte u.pc = v) :
    (∀ op i, fetch u = .ok (op, i) → op = v) ∧ (dispatch u.cfg v = none → fetch u = .error (.invalidOpcode v)) := by
  subst hv
  exact ⟨fun op i h => (fetch_eq_ok h).1, fetch_of_dispatch_eq_none hpc⟩

/-- The byte a push wrote is the opcode byte of the next fetch of its address. -/
theorem fetch_of_pushed {sp v : Byte} {n : Nat} (hwf : s.mem.wf = true) (hmem : u.mem = (s.pushed sp v n).mem)
    (hpc : u.pc = (s.pushed sp v n).sp.toNat) :
    (∀ op i, fetch u = .ok (op, i) → op = v) ∧ (dispatch u.cfg v = none → fetch u = .error (.invalidOpcode v)) := by
  rw [State.pushed_sp] at hpc
  have hbyte : u.byte u.pc = v := by
    rw [State.byte, hmem, hpc]
    exact State.pushed_byte hwf sp v n
  exact fetch_of_byte_eq (hpc ▸ sp.isLt) hbyte

end Stack

/-- Settles O14: PUSH's operand is read after SP was decremented. -/
theorem pushResult : Obligations.PushResult := by
  intro s r new h
  rw [exec_push_regByte (by omega), ← eq_sub_one_of_toNat h]
  rfl

/-- Settles O15: an operand other than R7 leaves the SP that is incremented, R7 replaces it. -/
theorem popResult : Obligations.PopResult := by
  refine fun s new => ⟨fun r hr h => ?_, fun h => ?_⟩
  · rw [exec_pop_regByte hr (toNat_ne_of_add_one h), ← eq_add_one_of_toNat h]
    rfl
  · have hsp : (s.setReg 7 (s.byte s.sp.toNat)).sp = s.byte s.sp.toNat := setReg_sp s 7 _
    rw [exec, execPop_regByte, hsp, if_neg (toNat_ne_of_add_one h), ← eq_add_one_of_toNat h, spIndex,
      State.setReg_setReg_same]
    rfl

/-- Settles O16: CALL's return address is a byte, and its target is read after SP was decremented. -/
theorem callResult : Obligations.CallResult := by
  intro s r new ret h hret
  have hpc : s.pc + 2 < 256 := hret ▸ ret.isLt
  rw [exec_call_regByte (by omega) hpc, ← eq_sub_one_of_toNat h, ← eq_narrow_of_toNat hret]
  split <;> rfl

/-- Settles O17: RET reads the byte at the old SP. -/
theorem returnResult : Obligations.ReturnResult := by
  intro s new h
  rw [exec_ret_eq (toNat_ne_of_add_one h), ← eq_add_one_of_toNat h]
  rfl

/-- Settles O21: the SP update fails first, and CALL's return address after it. -/
theorem stackErrorsRaiseOutOfBounds : Obligations.StackErrorsRaiseOutOfBounds := by
  refine fun s r => ⟨fun h => ?_, fun h => ⟨?_, fun hr => ?_⟩, fun h => ?_, fun hpc h => ?_⟩
  · have h0 : s.sp.toNat = 0 := by rw [h]; rfl
    simp only [List.forall_mem_cons, List.not_mem_nil, false_imp_iff, implies_true, and_true]
    exact ⟨(execPush_regByte r s).trans (if_pos h0), (execCall_regByte r s).trans (if_pos h0)⟩
  · have h255 : s.sp.toNat = 255 := by rw [h]; rfl
    exact (execRet_eq s).trans (if_pos h255)
  · have h255 : (s.setReg r (s.byte s.sp.toNat)).sp.toNat = 255 := by rw [setReg_sp, if_neg hr, h]; rfl
    exact (execPop_regByte r s).trans (if_pos h255)
  · have h255 : (s.setReg 7 (s.byte s.sp.toNat)).sp.toNat = 255 := by rw [setReg_sp, if_pos rfl, h]; rfl
    exact (execPop_regByte 7 s).trans (if_pos h255)
  · have h256 : s.pc + 2 = 256 := by rw [hpc]
    rw [exec, execCall_regByte, if_neg (toNat_ne_zero h), h256]
    rfl

/-- Settles O42: POP reads the byte PUSH wrote, at the SP PUSH left, and increments that SP. -/
theorem pushThenPopReturnsTheValue : Obligations.PushThenPopReturnsTheValue := by
  intro s ra rd hwf hsp hrd
  have hrd' : spIndex ≠ rd := hrd.symm
  refine ⟨_, _, exec_push_regByte (toNat_ne_zero hsp), exec_pop_regByte hrd ?_, ?_⟩
  · rw [State.pushed_sp]
    exact sub_one_toNat_ne hsp
  · simp only [State.pushed_sp, State.pushed_byte hwf, BitVec.sub_add_cancel]
    refine ⟨fun hra => ?_, fun hra => ?_, State.setReg_sp_sp _ _, fun q hq => ?_, rfl⟩
    · rw [State.setPc_reg, State.setReg_reg_of_ne _ _ hrd', State.setReg_reg_same, if_neg hra]
    · rw [State.setPc_reg, State.setReg_reg_of_ne _ _ hrd', State.setReg_reg_same, if_pos hra]
    · rw [State.setPc_reg, setReg_sp_reg]
      split
      · rename_i hq7
        rw [hq7]
        rfl
      · rename_i hq7
        have hq7' : spIndex ≠ q := Ne.symm hq7
        rw [State.setReg_reg_of_ne _ _ hq.symm]
        exact State.setReg_reg_of_ne s _ hq7'

/-- Settles O43: RET reads the byte CALL wrote, the return address, at the SP CALL left, and increments that SP. -/
theorem returnGoesBehindTheCall : Obligations.ReturnGoesBehindTheCall := by
  intro s ra hwf hsp hpc
  have hret : (narrow (s.pc + 2)).toNat = s.pc + 2 := by rw [narrow_toNat, Nat.mod_eq_of_lt (by omega)]
  refine ⟨_, exec_call_regByte (toNat_ne_zero hsp) (by omega), fun u husp hubyte => ?_⟩
  rw [State.pushed_sp] at husp hubyte
  rw [State.pushed_byte hwf] at hubyte
  have hu : u.sp.toNat ≠ 255 := by rw [husp]; exact sub_one_toNat_ne hsp
  refine ⟨_, exec_ret_eq hu, ?_, ?_⟩
  · rw [State.setPc_pc, hubyte, hret]
  · rw [State.setPc_sp, State.setReg_sp_sp, husp, BitVec.sub_add_cancel]

/-- Settles O44: PUSH and CALL write one byte where SP points, and a fetch there takes it for the opcode. -/
theorem pushedByteIsFetched : Obligations.PushedByteIsFetched := by
  refine fun s t r hwf hsp => ⟨fun h u hmem hcfg hpc => ?_, fun ret hret h u hmem hcfg hpc => ?_⟩
  · have hpush := h.symm.trans (exec_push_regByte (toNat_ne_zero hsp))
    cases hpush
    rw [← hcfg, State.pushed_sp]
    exact fetch_of_pushed hwf hmem hpc
  · have hcall := h.symm.trans (exec_call_regByte (toNat_ne_zero hsp) (hret ▸ ret.isLt))
    cases hcall
    rw [← hcfg, eq_narrow_of_toNat hret]
    exact fetch_of_pushed hwf hmem hpc

end Sys2Proof.Machine
